-- ==== Sys2Proof/Word.lean ====
section
/-! DEFINITION. The bit-vector types of the go-id bit-buffer block (spec 00_scope.md R8, R10, R13). -/

namespace Sys2Proof

/-- One byte of `BUF`, `INB`, `OUTB` or of the text form (R130). -/
abbrev Byte := BitVec 8

/-- A command word `CMD[31:0]` (R60). -/
abbrev CmdWord := BitVec 32

/-- A 64-bit unsigned value: `DIN`, `DOUT`, a time value, an entropy value (R13). -/
abbrev Value := BitVec 64

/-- The 128 bits of the bit buffer, as the integer `U(BUF)` of R11 (log 8). -/
abbrev Buf := BitVec 128

end Sys2Proof
end

