-- ==== Sys2Proof/Syntax.lean ====
section
/-! DEFINITION. The commands of the block, one constructor per row of spec/opcode_table.json (30_encoding.md R65). -/

namespace Sys2Proof

/-- A command with its operands. Operands are counts of bits or bytes (R61), so they are naturals; `wellFormed` says
which fit their 8-bit fields (R69). -/
inductive Instr where
  /-- 0x01 CLEAR (R81) -/
  | clear
  /-- 0x02 INSERT off, wid (R82) -/
  | insert (off wid : Nat)
  /-- 0x03 EXTRACT off, wid (R84) -/
  | extract (off wid : Nat)
  /-- 0x04 RDBYTES (R85) -/
  | rdbytes
  /-- 0x05 FROMBYTES len (R86) -/
  | frombytes (len : Nat)
  /-- 0x10 RANDBITS wid (R106) -/
  | randbits (wid : Nat)
  /-- 0x11 NEW (R110) -/
  | new
  /-- 0x12 GETTS (R115) -/
  | getts
  /-- 0x13 GETVER (R116) -/
  | getver
  /-- 0x14 GETRANDA (R117) -/
  | getranda
  /-- 0x15 GETVAR (R118) -/
  | getvar
  /-- 0x16 GETRANDB (R119) -/
  | getrandb
  /-- 0x20 FORMAT (R135) -/
  | format
  /-- 0x21 PARSE len (R137) -/
  | parse (len : Nat)
  deriving DecidableEq, Repr

end Sys2Proof
end

