-- ==== Sys2Proof/WellFormed.lean ====
section
/-! DEFINITION. Which commands have an encoding: every operand fits its 8-bit field (30_encoding.md R61, R69). -/

namespace Sys2Proof

/-- `n` fits an 8-bit field (R61). -/
def fitsField (n : Nat) : Bool := decide (n < 256)

/-- "An operand that does not fit its 8-bit field is an assembly error" (R69). A width of 0 or an offset past the
buffer is well-formed: the operation rejects it, not the encoding (R62). -/
def Instr.wellFormed : Instr → Bool
  | .clear => true
  | .insert off wid => fitsField off && fitsField wid
  | .extract off wid => fitsField off && fitsField wid
  | .rdbytes => true
  | .frombytes len => fitsField len
  | .randbits wid => fitsField wid
  | .new => true
  | .getts => true
  | .getver => true
  | .getranda => true
  | .getvar => true
  | .getrandb => true
  | .format => true
  | .parse len => fitsField len

end Sys2Proof
end

