-- ==== Sys2Proof/Decode.lean ====
section
/-! DEFINITION. The decoder of command words (30_encoding.md R61 to R68), total on 32 bits, and after it the encoder. -/

namespace Sys2Proof

/-- Why a word is illegal. Both raise `IllegalCommand` (R66, R67). -/
inductive Illegal where
  /-- the `OPC` is not in the opcode map (R67) -/
  | unassignedOpcode
  /-- a field the opcode map marks 0 is not zero (R66) -/
  | reservedField
  deriving DecidableEq, Repr

/-- `OPC = CMD[31:24]` (R61). -/
def opcField (w : CmdWord) : Nat := (w.extractLsb' 24 8).toNat

/-- `OFF = CMD[23:16]` (R61). -/
def offField (w : CmdWord) : Nat := (w.extractLsb' 16 8).toNat

/-- `WID = CMD[15:8]` (R61). -/
def widField (w : CmdWord) : Nat := (w.extractLsb' 8 8).toNat

/-- `LEN = CMD[7:0]` (R61). -/
def lenField (w : CmdWord) : Nat := (w.extractLsb' 0 8).toNat

/-- `i`, unless a field the map marks 0 is not zero (R66). -/
def ifReservedZero (zero : Bool) (i : Instr) : Except Illegal Instr :=
  if zero then .ok i else .error .reservedField

/-- The fields `OFF`, `WID` and `LEN` are all zero: the rows with no operand (R65). -/
def noOperands (w : CmdWord) : Bool := offField w == 0 && widField w == 0 && lenField w == 0

/-- The decoder (R65, R68). -/
def decode (w : CmdWord) : Except Illegal Instr :=
  match opcField w with
  | 0x01 => ifReservedZero (noOperands w) .clear
  | 0x02 => ifReservedZero (lenField w == 0) (.insert (offField w) (widField w))
  | 0x03 => ifReservedZero (lenField w == 0) (.extract (offField w) (widField w))
  | 0x04 => ifReservedZero (noOperands w) .rdbytes
  | 0x05 => ifReservedZero (offField w == 0 && widField w == 0) (.frombytes (lenField w))
  | 0x10 => ifReservedZero (offField w == 0 && lenField w == 0) (.randbits (widField w))
  | 0x11 => ifReservedZero (noOperands w) .new
  | 0x12 => ifReservedZero (noOperands w) .getts
  | 0x13 => ifReservedZero (noOperands w) .getver
  | 0x14 => ifReservedZero (noOperands w) .getranda
  | 0x15 => ifReservedZero (noOperands w) .getvar
  | 0x16 => ifReservedZero (noOperands w) .getrandb
  | 0x20 => ifReservedZero (noOperands w) .format
  | 0x21 => ifReservedZero (offField w == 0 && widField w == 0) (.parse (lenField w))
  | _ => .error .unassignedOpcode

/-- A word from its four fields (R61). -/
def packWord (opc off wid len : Nat) : CmdWord :=
  BitVec.ofNat 8 opc ++ BitVec.ofNat 8 off ++ BitVec.ofNat 8 wid ++ BitVec.ofNat 8 len

/-- The encoder (R65, R69). It is meant for well-formed commands: an operand that does not fit is an assembly error. -/
def encode : Instr → CmdWord
  | .clear => packWord 0x01 0 0 0
  | .insert off wid => packWord 0x02 off wid 0
  | .extract off wid => packWord 0x03 off wid 0
  | .rdbytes => packWord 0x04 0 0 0
  | .frombytes len => packWord 0x05 0 0 len
  | .randbits wid => packWord 0x10 0 wid 0
  | .new => packWord 0x11 0 0 0
  | .getts => packWord 0x12 0 0 0
  | .getver => packWord 0x13 0 0 0
  | .getranda => packWord 0x14 0 0 0
  | .getvar => packWord 0x15 0 0 0
  | .getrandb => packWord 0x16 0 0 0
  | .format => packWord 0x20 0 0 0
  | .parse len => packWord 0x21 0 0 len

/-- A row of the opcode map as its `mask` and `match` words (R65, R68). -/
structure OpcodeRow where
  mask : CmdWord
  bits : CmdWord
  deriving DecidableEq, Repr

/-- The row of R65 a command belongs to, as the text after the map gives its mask and match. -/
def Instr.row : Instr → OpcodeRow
  | .clear => ⟨0xFFFFFFFF, 0x01000000⟩
  | .insert _ _ => ⟨0xFF0000FF, 0x02000000⟩
  | .extract _ _ => ⟨0xFF0000FF, 0x03000000⟩
  | .rdbytes => ⟨0xFFFFFFFF, 0x04000000⟩
  | .frombytes _ => ⟨0xFFFFFF00, 0x05000000⟩
  | .randbits _ => ⟨0xFFFF00FF, 0x10000000⟩
  | .new => ⟨0xFFFFFFFF, 0x11000000⟩
  | .getts => ⟨0xFFFFFFFF, 0x12000000⟩
  | .getver => ⟨0xFFFFFFFF, 0x13000000⟩
  | .getranda => ⟨0xFFFFFFFF, 0x14000000⟩
  | .getvar => ⟨0xFFFFFFFF, 0x15000000⟩
  | .getrandb => ⟨0xFFFFFFFF, 0x16000000⟩
  | .format => ⟨0xFFFFFFFF, 0x20000000⟩
  | .parse _ => ⟨0xFFFFFF00, 0x21000000⟩

/-- The whole opcode map of R65, in its order. -/
def opcodeMap : List OpcodeRow :=
  [Instr.row .clear, Instr.row (.insert 0 0), Instr.row (.extract 0 0), Instr.row .rdbytes,
   Instr.row (.frombytes 0), Instr.row (.randbits 0), Instr.row .new, Instr.row .getts, Instr.row .getver,
   Instr.row .getranda, Instr.row .getvar, Instr.row .getrandb, Instr.row .format, Instr.row (.parse 0)]

/-- The instruction the decoder reads from the table's word `w` of `nbits` bits. A command is one 32-bit word (R60),
so the bits above `nbits` are 0. -/
def decodeTableWord (nbits w : Nat) : Option Instr :=
  match decode (BitVec.ofNat 32 (w % 2 ^ nbits)) with
  | .ok i => some i
  | .error _ => none

end Sys2Proof
end

