-- ==== Sys2Proof/Config.lean ====
section
/-! DEFINITION. What the implementation fixes (`INSERT_STRICT`) and the free values of the two ports. -/

namespace Sys2Proof

/-- A response of the entropy port: `Ok(V)` with any 64-bit `V`, or `Err` (10_state.md R40, R41). -/
inductive EntropyResponse where
  | ok (v : Value)
  | err
  deriving DecidableEq, Repr, Inhabited

/-- DESIGN CHOICE (log 1): the reference value R8 gives the parameter `INSERT_STRICT`. Only `State.reset` reads it;
every meaning reads the field `strict` of State, so a statement over all states holds for both values. -/
def Config.insertStrict : Bool := true

/-- Free value (log 2): what the time port returns at its `n`-th read when nothing outside has fixed it. The value is
a draw under no law (10_state.md R39): no body, so nothing can be proved of it. -/
opaque Config.timeDraw : Nat → Value

/-- Free value (log 3): the entropy port's answer to the request after which `n` requests have been sent, when nothing
outside has fixed it. Each response is a draw (10_state.md R41): no body. -/
opaque Config.entropyDraw : Nat → EntropyResponse

end Sys2Proof
end

