-- ==== Sys2Proof/Machine/State.lean ====
section
/-! DEFINITION. The machine's state as plain data (10_state.md), its stop reasons, and the state after reset (R170). -/

namespace Sys2Proof.Machine

/-- A byte store (`INB`, `OUTB`): (index, byte) pairs, indices strictly rising, no byte equal to what an unlisted index
reads as (log 9). -/
abbrev Memory := List Host.Cell

/-- `PHASE` (10_state.md R34). -/
inductive Phase where
  | idle
  | randWait
  | newWaitA
  | newWaitB
  deriving DecidableEq, Repr

/-- The error kinds of `STATUS.ERR` (60_exceptions.md R150). -/
inductive ErrorKind where
  | invalidWidth
  | rangeError
  | randomSourceError
  | formatError
  | illegalCommand
  deriving DecidableEq, Repr

/-- What the outside does to the block at a port (10_state.md R33, R40, R43; 70_reset_and_hazards.md R170). -/
inductive Input where
  /-- the host presents a command word on the command port (R43) -/
  | present (w : CmdWord)
  /-- the host writes `DIN` (R33) -/
  | writeDin (v : Value)
  /-- the host writes the byte `INB[i]` (R33) -/
  | writeInb (i : BitVec 8) (b : Byte)
  /-- the entropy port delivers a response (R40) -/
  | entropy (r : EntropyResponse)
  /-- the platform drives the reset input: asserted or released (R170, R171) -/
  | resetLine (asserted : Bool)
  deriving DecidableEq, Repr

/-- The host-visible registers of 10_state.md R33. -/
inductive HostReg where
  | din
  | inb (i : Fin 256)
  | dout
  | outb (i : Fin 36)
  | outlen
  | status
  deriving DecidableEq, Repr

/-- No step of this block stops: every error is a code in `STATUS.ERR` and the block stays ready (60_exceptions.md R158,
R159). So there is no fault to name. -/
inductive Fault
  deriving DecidableEq, Repr

/-- Refusals. -/
inductive Refusal where
  /-- raised only by an arm of `exec` whose instruction has no meaning yet; no arm of this model raises it (safe) -/
  | notModelled (mnemonic : String)
  deriving DecidableEq, Repr

/-- The state of the block, of the words and inputs that wait at its ports, and of the ports' traffic so far. -/
structure State where
  /-- `BUF` as the integer `U(BUF)` (R11, R22; log 8) -/
  buf : Buf
  /-- `DIN` (R25) -/
  din : Value
  /-- `DOUT` (R26) -/
  dout : Value
  /-- `INB[0..256)` (R27) -/
  inb : Memory
  /-- `OUTB[0..36)` (R28) -/
  outb : Memory
  /-- `OUTLEN` (R28) -/
  outlen : BitVec 6
  /-- `STATUS.ERR` (R29, R30) -/
  err : BitVec 3
  /-- `STATUS.STRICT`, the parameter `INSERT_STRICT` (R32, R37); nothing writes it (log 1) -/
  strict : Bool
  /-- `PHASE` (R34); `STATUS.BUSY` is read from it (R31) -/
  phase : Phase
  /-- `LAT_W` (R35) -/
  latW : BitVec 7
  /-- `LAT_T` (R35) -/
  latT : BitVec 48
  /-- `LAT_A` (R35) -/
  latA : BitVec 12
  /-- the reset input is asserted (R171; log 6) -/
  inReset : Bool
  /-- the command words presented and not yet accepted, oldest first (R43, R178; log 5) -/
  cmdPort : List CmdWord
  /-- the model's own: what the outside does next, oldest first (log 4) -/
  inputs : List Input
  /-- the model's own: the values the time port is already set to return (log 2) -/
  timeScript : List Value
  /-- the model's own: how many time reads the block has made (log 2, log 16) -/
  timeReads : Nat
  /-- the model's own: the widths of the entropy requests sent so far, oldest first (R40; log 16) -/
  requests : List (BitVec 7)
  deriving DecidableEq, Repr

/-- The state after reset (70_reset_and_hazards.md R170, R171), with nothing presented, scheduled or sent (log 13). -/
def State.reset : State where
  buf := 0
  din := 0
  dout := 0
  inb := []
  outb := []
  outlen := 0
  err := 0
  strict := Config.insertStrict
  phase := .idle
  latW := 0
  latT := 0
  latA := 0
  inReset := false
  cmdPort := []
  inputs := []
  timeScript := []
  timeReads := 0
  requests := []

/-- The outcome of a meaning and of a step. -/
abbrev Result := Host.Outcome State Fault Refusal

end Sys2Proof.Machine
end

