-- ==== Sys2Proof/Machine/Flags.lean ====
section
/-! DEFINITION. The status register: error codes (60_exceptions.md R150) and the view of its eight bits (10_state.md R29). -/

namespace Sys2Proof.Machine

/-- The code of an error kind in `STATUS.ERR` (R150). Code 0 is success; 5 and 6 are never written. -/
def ErrorKind.code : ErrorKind → BitVec 3
  | .invalidWidth => 1
  | .rangeError => 2
  | .randomSourceError => 3
  | .formatError => 4
  | .illegalCommand => 7

/-- `STATUS.BUSY`: 1 exactly while `PHASE` is not `IDLE` (R31). -/
def State.busy (s : State) : Bool := decide (s.phase ≠ .idle)

/-- `STATUS` as the host reads it: BUSY (7), STRICT (6), bits 5:3 hardwired 0, ERR (2:0) (R29; log 10). -/
def State.status (s : State) : BitVec 8 :=
  BitVec.ofBool s.busy ++ BitVec.ofBool s.strict ++ 0#3 ++ s.err

end Sys2Proof.Machine
end

