-- ==== Sys2Proof/Machine/Ops.lean ====
section
/-! DEFINITION. The named operations: byte stores, the bit buffer, completing and failing a command, the two ports, reset. -/

namespace Sys2Proof.Machine

/-! ### Byte stores (`INB`, `OUTB`) -/

/-- What an index that is not listed reads as: the reset contents of `INB` and `OUTB` (70_reset_and_hazards.md R170). -/
def Memory.unlisted : Byte := 0

/-- The byte at an index. -/
def Memory.read : Memory → Nat → Byte
  | [], _ => Memory.unlisted
  | (b, v) :: m, a => if a = b then v else Memory.read m a

/-- Put an entry before the first larger index. -/
def Memory.place : Memory → Nat → Byte → Memory
  | [], a, v => [(a, v)]
  | (b, w) :: m, a, v => if a < b then (a, v) :: (b, w) :: m else (b, w) :: Memory.place m a v

/-- Write one byte, keeping the canonical form: the unlisted value removes the entry. -/
def Memory.write (m : Memory) (a : Nat) (v : Byte) : Memory :=
  let rest := m.filter (fun c => decide (c.1 ≠ a))
  if v = Memory.unlisted then rest else Memory.place rest a v

/-- Write consecutive bytes from index `a` up. -/
def Memory.writeBytes : Memory → Nat → List Byte → Memory
  | m, _, [] => m
  | m, a, b :: bs => Memory.writeBytes (Memory.write m a b) (a + 1) bs

/-- The `n` bytes from index `a` up. -/
def Memory.readBytes (m : Memory) (a n : Nat) : List Byte := (List.range n).map (fun i => m.read (a + i))

/-- The entries have strictly rising indices from `lo` up and below `size`, and none reads as unlisted. -/
def Memory.wfFrom (lo size : Nat) : Memory → Bool
  | [] => true
  | (a, v) :: m => decide (lo ≤ a) && decide (a < size) && decide (v ≠ Memory.unlisted) && Memory.wfFrom (a + 1) size m

/-- The canonical form of a store of `size` bytes (log 9). -/
def Memory.wf (m : Memory) (size : Nat) : Bool := Memory.wfFrom 0 size m

/-! ### The bit buffer -/

/-- `BUF.byte[i]`: byte 0 is the most significant (20_memory.md R47, 00_scope.md R11). -/
def bufByte (u : Buf) (i : Nat) : Byte := u.extractLsb' (8 * (15 - i)) 8

/-- `Bytes(u)`: the 16 bytes, byte 0 first (R11). -/
def bufBytes (u : Buf) : List Byte := (List.range 16).map (bufByte u)

/-- The buffer whose bytes are the given 16, byte 0 first: the sum of R11, Horner's way. -/
def bufOfBytes (bs : List Byte) : Buf := BitVec.ofNat 128 (bs.foldl (fun acc b => acc * 256 + b.toNat) 0)

/-- The bit at buffer position `p`: "bit `7 - (p mod 8)` (LSB-0) of byte `floor(p / 8)`" (R10). -/
def bufBit (u : Buf) (p : Nat) : Bool := (bufByte u (p / 8)).getLsbD (7 - p % 8)

/-- `Field(u, off, w)` (R12): the `w` bits at positions `[off, off+w)`, right-aligned. -/
def fieldAt (u : Buf) (off w : Nat) : Nat := (u.toNat >>> (128 - off - w)) % 2 ^ w

/-- `Place(u, off, w, v)` (R12), computed in 128 bits. -/
def placeAt (u : Buf) (off w v : Nat) : Buf :=
  (u &&& ~~~(BitVec.ofNat 128 (2 ^ w - 1) <<< (128 - off - w))) |||
    (BitVec.ofNat 128 (v % 2 ^ w) <<< (128 - off - w))

/-- `Pack(T, A, B)` (41_ldid.md R103). -/
def pack (t : BitVec 48) (a : BitVec 12) (b : BitVec 62) : Buf :=
  (t.setWidth 128 <<< 80) ||| ((7 : Buf) <<< 76) ||| (a.setWidth 128 <<< 64) ||| ((2 : Buf) <<< 62) |||
    b.setWidth 128

/-! ### Completing and failing -/

/-- `complete` (R12): the command succeeds and `STATUS.ERR` becomes 0. -/
def completed (s : State) : State := { s with err := 0 }

/-- `raise E` (R12; 60_exceptions.md R153): `STATUS.ERR` gets the code and nothing else is written. This is the
block's whole taking of an error; there is no return from it (R158, R159). -/
def raised (e : ErrorKind) (s : State) : State := { s with err := e.code }

/-! ### Ports -/

/-- The block accepts a command: `PHASE` is `IDLE` (10_state.md R43) and reset is not asserted (70 R171). -/
def State.ready (s : State) : Bool := decide (s.phase = .idle) && !s.inReset

/-- The value of the next `TimeRead()` (10_state.md R38, R39): the one the outside has set, else a free value (log 2). -/
def timeValue (s : State) : Value :=
  match s.timeScript with
  | t :: _ => t
  | [] => Config.timeDraw s.timeReads

/-- The state after one `TimeRead()`. -/
def afterTimeRead (s : State) : State :=
  { s with timeScript := s.timeScript.tail, timeReads := s.timeReads + 1 }

/-- `send EntropyRequest(n)` (10_state.md R40): one request carrying the width leaves the block. -/
def sendRequest (n : Nat) (s : State) : State := { s with requests := s.requests ++ [BitVec.ofNat 7 n] }

/-- The entropy port's answer to the outstanding request when the outside has scheduled nothing (log 3). -/
def freeResponse (s : State) : EntropyResponse := Config.entropyDraw s.requests.length

/-- The width of the request the block waits on, if any (10_state.md R40, R41). -/
def State.outstanding (s : State) : Option Nat :=
  match s.phase with
  | .idle => none
  | .randWait => some s.latW.toNat
  | .newWaitA => some 12
  | .newWaitB => some 62

/-- Every piece of the block's own state at its reset value (70_reset_and_hazards.md R170). `STATUS.STRICT` is hardwired,
and what stands outside the block (the words on the command port, the inputs to come, the traffic so far) is not its
own (log 6). -/
def resetRegisters (s : State) : State :=
  { s with
    buf := 0, din := 0, dout := 0, inb := [], outb := [], outlen := 0, err := 0, phase := .idle,
    latW := 0, latT := 0, latA := 0 }

/-! ### Host reads -/

/-- What the host reads from a visible register (10_state.md R33); reading changes nothing. -/
def hostRead (r : HostReg) (s : State) : Nat :=
  match r with
  | .din => s.din.toNat
  | .inb i => (s.inb.read i.val).toNat
  | .dout => s.dout.toNat
  | .outb i => (s.outb.read i.val).toNat
  | .outlen => s.outlen.toNat
  | .status => s.status.toNat

end Sys2Proof.Machine
end

