-- ==== Sys2Proof/Machine/Operands.lean ====
section
/-! DEFINITION. The operand forms: width and run checks, the value operand, the bytes of `INB`, the fields of an LDID. -/

namespace Sys2Proof.Machine

/-- A width outside 1 to 64: `InvalidWidth` (30_encoding.md R62, 60_exceptions.md R151). -/
def badWidth (wid : Nat) : Bool := decide (wid < 1) || decide (64 < wid)

/-- A run past the 128 positions: `RangeError` (20_memory.md R46, 60_exceptions.md R152). -/
def runPastEnd (off wid : Nat) : Bool := decide (128 < off + wid)

/-- The value operand of INSERT: `DIN`, read at accept (30_encoding.md R64, 70_reset_and_hazards.md R179). -/
def insertOperand (s : State) : Nat := s.din.toNat

/-- The value is wider than its field, and the block is strict (40_bitbuffer.md R82). -/
def overWide (s : State) (wid : Nat) : Bool := decide (2 ^ wid ≤ insertOperand s) && s.strict

/-- `INB[0..LEN)`, read at accept (30_encoding.md R63). -/
def inbOperand (s : State) (len : Nat) : List Byte := s.inb.readBytes 0 len

/-- `EXTRACT`'s effect on a legal run: `DOUT` gets the field, right-aligned and zero-extended (40_bitbuffer.md R84). -/
def readField (off wid : Nat) (s : State) : State :=
  { s with dout := BitVec.ofNat 64 (fieldAt s.buf off wid) }

/-- `V mod 2^n` in 64 bits: what `RandomBits(n)` returns for the response `Ok(V)` (41_ldid.md R104). -/
def reduceDraw (v : Value) (n : Nat) : Value := BitVec.ofNat 64 (v.toNat % 2 ^ n)

end Sys2Proof.Machine
end

