-- ==== Sys2Proof/Machine/BitBuffer.lean ====
section
/-! DEFINITION. The bit-buffer commands (40_bitbuffer.md): CLEAR, INSERT, EXTRACT, RDBYTES, FROMBYTES.
Each meaning is that of an accepted command: `Control.lean` calls it only when the block is ready (log 17). -/

namespace Sys2Proof.Machine

/-- CLEAR (R81). -/
def execClear (s : State) : Result := .next (completed { s with buf := 0 })

/-- INSERT (R82): width, then bounds, then the strict value check (R157). -/
def execInsert (off wid : Nat) (s : State) : Result :=
  if badWidth wid then .next (raised .invalidWidth s)
  else if runPastEnd off wid then .next (raised .rangeError s)
  else if overWide s wid then .next (raised .rangeError s)
  else .next (completed { s with buf := placeAt s.buf off wid (insertOperand s) })

/-- EXTRACT (R84): width, then bounds (R157). -/
def execExtract (off wid : Nat) (s : State) : Result :=
  if badWidth wid then .next (raised .invalidWidth s)
  else if runPastEnd off wid then .next (raised .rangeError s)
  else .next (completed (readField off wid s))

/-- RDBYTES (R85): `OUTB[16..36)` keeps its values (R28). -/
def execRdbytes (s : State) : Result :=
  .next (completed { s with outb := s.outb.writeBytes 0 (bufBytes s.buf), outlen := 16 })

/-- FROMBYTES (R86). -/
def execFrombytes (len : Nat) (s : State) : Result :=
  if len ≠ 16 then .next (raised .formatError s)
  else .next (completed { s with buf := bufOfBytes (inbOperand s 16) })

end Sys2Proof.Machine
end

