-- ==== Sys2Proof/Machine/Codec.lean ====
section
/-! DEFINITION. The bit-string codec (42_string_codec.md): the characters, FORMAT and PARSE. -/

namespace Sys2Proof.Machine

/-- The hyphen `'-'` (R131). -/
def hyphen : Byte := 0x2D

/-- `HexLower(n)` for `n` of 0 to 15 (R131). -/
def hexLower (n : Nat) : Byte := if n ≤ 9 then BitVec.ofNat 8 (0x30 + n) else BitVec.ofNat 8 (0x61 + (n - 10))

/-- `IsHex(c)`: a digit, or a letter `a` to `f` of either case (R131, R138). -/
def isHex (c : Byte) : Bool :=
  (decide (0x30 ≤ c.toNat) && decide (c.toNat ≤ 0x39)) || (decide (0x61 ≤ c.toNat) && decide (c.toNat ≤ 0x66)) ||
    (decide (0x41 ≤ c.toNat) && decide (c.toNat ≤ 0x46))

/-- `HexVal(c)`, the digit value of a byte with `IsHex(c)` (R131). -/
def hexVal (c : Byte) : Nat :=
  if c.toNat ≤ 0x39 then c.toNat - 0x30 else if c.toNat ≤ 0x46 then c.toNat - 0x41 + 10 else c.toNat - 0x61 + 10

/-- The characters of byte `i`: a hyphen before bytes 4, 6, 8 and 10, then the high and the low nibble (R132, R134). -/
def byteText (u : Buf) (i : Nat) : List Byte :=
  (if i = 4 ∨ i = 6 ∨ i = 8 ∨ i = 10 then [hyphen] else []) ++
    [hexLower ((bufByte u i).toNat / 16), hexLower ((bufByte u i).toNat % 16)]

/-- `Canon(u)`, the 36 characters of the text form (R134). -/
def canon (u : Buf) : List Byte := (List.range 16).flatMap (byteText u)

/-- The bytes of pairs of hex digits, high digit first (R137). -/
def hexBytes : List Byte → List Byte
  | a :: b :: rest => BitVec.ofNat 8 (hexVal a * 16 + hexVal b) :: hexBytes rest
  | _ => []

/-- The decoding of PARSE (R137): hyphens out, then exactly 32 hex digits, or nothing. -/
def parseText (s : List Byte) : Option Buf :=
  let d := s.filter (fun c => decide (c ≠ hyphen))
  if d.length ≠ 32 then none
  else if d.all isHex then some (bufOfBytes (hexBytes d))
  else none

/-- FORMAT (R135). -/
def execFormat (s : State) : Result :=
  .next (completed { s with outb := s.outb.writeBytes 0 (canon s.buf), outlen := 36 })

/-- PARSE (R137): both causes report `FormatError`; the tags are not checked (R139). -/
def execParse (len : Nat) (s : State) : Result :=
  match parseText (inbOperand s len) with
  | none => .next (raised .formatError s)
  | some u => .next (completed { s with buf := u })

end Sys2Proof.Machine
end

