-- ==== Sys2Proof/Machine/Ldid.lean ====
section
/-! DEFINITION. The LDID field packer (41_ldid.md): RANDBITS, NEW and the five accessors, and the completion of the two
waiting commands by a response of the entropy port. -/

namespace Sys2Proof.Machine

/-- RANDBITS at accept (R106): a bad width fails at once and sends nothing; otherwise one request is sent. -/
def execRandbits (wid : Nat) (s : State) : Result :=
  if badWidth wid then .next (raised .invalidWidth s)
  else .next (sendRequest wid { s with latW := BitVec.ofNat 7 wid, phase := .randWait })

/-- NEW at accept (R110): one time read, truncated to 48 bits (R109), then the 12-bit request. -/
def execNew (s : State) : Result :=
  .next (sendRequest 12 { afterTimeRead s with latT := (timeValue s).setWidth 48, phase := .newWaitA })

/-- GETTS (R115). -/
def execGetts (s : State) : Result := .next (completed (readField 0 48 s))

/-- GETVER (R116). -/
def execGetver (s : State) : Result := .next (completed (readField 48 4 s))

/-- GETRANDA (R117). -/
def execGetranda (s : State) : Result := .next (completed (readField 52 12 s))

/-- GETVAR (R118). -/
def execGetvar (s : State) : Result := .next (completed (readField 64 2 s))

/-- GETRANDB (R119). -/
def execGetrandb (s : State) : Result := .next (completed (readField 66 62 s))

/-- The response to a RANDBITS (R106). -/
def answerRandbits (r : EntropyResponse) (s : State) : State :=
  match r with
  | .err => raised .randomSourceError { s with phase := .idle }
  | .ok v => completed { s with phase := .idle, dout := reduceDraw v s.latW.toNat }

/-- The first response to a NEW (R110): on `Err` no second request is sent. -/
def answerNewA (r : EntropyResponse) (s : State) : State :=
  match r with
  | .err => raised .randomSourceError { s with phase := .idle }
  | .ok v => sendRequest 62 { s with latA := v.setWidth 12, phase := .newWaitB }

/-- The second response to a NEW (R110): only now is `BUF` written (R111). -/
def answerNewB (r : EntropyResponse) (s : State) : State :=
  match r with
  | .err => raised .randomSourceError { s with phase := .idle }
  | .ok v => completed { s with phase := .idle, buf := pack s.latT s.latA (v.setWidth 62) }

/-- A response of the entropy port. "a response is taken only in those phases" (10_state.md R41): with no request
outstanding it is discarded (70_reset_and_hazards.md R172). -/
def answer (r : EntropyResponse) (s : State) : State :=
  match s.phase with
  | .idle => s
  | .randWait => answerRandbits r s
  | .newWaitA => answerNewA r s
  | .newWaitB => answerNewB r s

end Sys2Proof.Machine
end

