-- ==== Sys2Proof/Machine/Dispatch.lean ====
section
/-! DEFINITION. One arm per command, in the order of the opcode map (30_encoding.md R65). -/

namespace Sys2Proof.Machine

/-- What an accepted command does (R68). -/
def exec (i : Instr) (s : State) : Host.Outcome State Fault Refusal :=
  match i with
  | .clear => Sys2Proof.Machine.execClear s
  | .insert off wid => Sys2Proof.Machine.execInsert off wid s
  | .extract off wid => Sys2Proof.Machine.execExtract off wid s
  | .rdbytes => Sys2Proof.Machine.execRdbytes s
  | .frombytes len => Sys2Proof.Machine.execFrombytes len s
  | .randbits wid => Sys2Proof.Machine.execRandbits wid s
  | .new => Sys2Proof.Machine.execNew s
  | .getts => Sys2Proof.Machine.execGetts s
  | .getver => Sys2Proof.Machine.execGetver s
  | .getranda => Sys2Proof.Machine.execGetranda s
  | .getvar => Sys2Proof.Machine.execGetvar s
  | .getrandb => Sys2Proof.Machine.execGetrandb s
  | .format => Sys2Proof.Machine.execFormat s
  | .parse len => Sys2Proof.Machine.execParse len s

end Sys2Proof.Machine
end

