-- ==== Sys2Proof/Machine/Control.lean ====
section
/-! DEFINITION. Accepting a command from the command port, taking an outside input, and which of them a step does. -/

namespace Sys2Proof.Machine

/-- Accept a command word (30_encoding.md R68): run its command, or raise `IllegalCommand` (60_exceptions.md R156). -/
def accept (w : CmdWord) (s : State) : Result :=
  match decode w with
  | .ok i => exec i s
  | .error _ => .next (raised .illegalCommand s)

/-- The reset input is asserted: the block's state goes to its reset values and it accepts nothing (R170, R171). -/
def assertReset (s : State) : State := { resetRegisters s with inReset := true }

/-- The reset input is released: "the block is in the state of rule R170 and ready" (R171). Without a reset there is
nothing to release. -/
def releaseReset (s : State) : State := if s.inReset then { resetRegisters s with inReset := false } else s

/-- One outside input (log 4). -/
def takeInput (i : Input) (s : State) : State :=
  match i with
  | .present w => { s with cmdPort := s.cmdPort ++ [w] }
  | .writeDin v => { s with din := v }
  | .writeInb i b => { s with inb := s.inb.write i.toNat b }
  | .entropy r => answer r s
  | .resetLine true => assertReset s
  | .resetLine false => releaseReset s

/-- A step in which the block accepts nothing: the oldest scheduled input, or, when none is left, the free answer of the
entropy port to an outstanding request (10_state.md R42; log 3). With no request outstanding nothing happens (R173). -/
def outsideStep (s : State) : State :=
  match s.inputs with
  | i :: rest => takeInput i { s with inputs := rest }
  | [] => answer (freeResponse s) s

/-- One step: a ready block takes the oldest word on the command port (10_state.md R43); otherwise the outside moves. -/
def advance (s : State) : Result :=
  match s.ready, s.cmdPort with
  | true, w :: rest => accept w { s with cmdPort := rest }
  | _, _ => .next (outsideStep s)

end Sys2Proof.Machine
end

