-- ==== Sys2Proof/Machine/Step.lean ====
section
/-! DEFINITION. The step, and how a word is placed where the next step takes it. -/

namespace Sys2Proof.Machine

/-- One step of the block and its surroundings (`advance`). -/
def step (s : State) : Host.Outcome State Fault Refusal := advance s

/-- `s` with the word `w` first on the command port of a ready block, so that the next step accepts exactly it
(log 13). A command is one 32-bit word (30_encoding.md R60). -/
def State.withFetchWord (s : State) (nbits w : Nat) : State :=
  { s with phase := .idle, inReset := false, cmdPort := BitVec.ofNat 32 (w % 2 ^ nbits) :: s.cmdPort }

end Sys2Proof.Machine
end

