-- ==== Sys2Proof/Safety.lean ====
section
/-! DEFINITION. What the claims call a consistent state, and the host-visible part of a state. -/

namespace Sys2Proof.Machine

/-- `k` steps, stopping where a step stops. Steps are counted, not time (70_reset_and_hazards.md R181). -/
def run : Nat → State → Result
  | 0, s => .next s
  | k + 1, s =>
    match step s with
    | .next t => run k t
    | .fault r => .fault r
    | .refused r => .refused r

/-- The codes `STATUS.ERR` may hold (10_state.md R29). -/
def legalErr (e : BitVec 3) : Bool := decide (e = 0 ∨ e = 1 ∨ e = 2 ∨ e = 3 ∨ e = 4 ∨ e = 7)

/-- The values `OUTLEN` may hold (10_state.md R28). -/
def legalOutlen (n : BitVec 6) : Bool := decide (n = 0 ∨ n = 16 ∨ n = 36)

/-- A waiting block's outstanding request is the last one it sent (10_state.md R41), of a width from 1 to 64 (R40). -/
def requestConsistent (s : State) : Bool :=
  match s.outstanding with
  | none => true
  | some n => decide (1 ≤ n) && decide (n ≤ 64) && decide (s.requests.getLast? = some (BitVec.ofNat 7 n))

/-- The invariant of the machine: canonical byte stores of 256 and 36 bytes (log 9), legal `OUTLEN` (R28) and `ERR` (R29),
a consistent outstanding request (R41), and no waiting under reset (R171). -/
def State.Inv (s : State) : Prop :=
  s.inb.wf 256 = true ∧ s.outb.wf 36 = true ∧ legalOutlen s.outlen = true ∧ legalErr s.err = true ∧
    requestConsistent s = true ∧ (s.inReset = true → s.phase = .idle)

/-- `BUF` carries the version and variant tags (41_ldid.md R112). -/
def tagged (u : Buf) : Prop := fieldAt u 48 4 = 7 ∧ fieldAt u 64 2 = 2

/-- The commands other than NEW that write `BUF` (10_state.md R20, R24). -/
def overwritesBuf : Instr → Bool
  | .clear => true
  | .insert _ _ => true
  | .frombytes _ => true
  | .parse _ => true
  | .extract _ _ => false
  | .rdbytes => false
  | .randbits _ => false
  | .new => false
  | .getts => false
  | .getver => false
  | .getranda => false
  | .getvar => false
  | .getrandb => false
  | .format => false

/-- The two waiting commands (00_scope.md R17). -/
def waits : Instr → Bool
  | .randbits _ => true
  | .new => true
  | .clear => false
  | .insert _ _ => false
  | .extract _ _ => false
  | .rdbytes => false
  | .frombytes _ => false
  | .getts => false
  | .getver => false
  | .getranda => false
  | .getvar => false
  | .getrandb => false
  | .format => false
  | .parse _ => false

/-- Where the two characters of byte `i` begin in the text form (42_string_codec.md R133). -/
def charIndex (i : Nat) : Nat :=
  2 * i + (if i < 4 then 0 else if i < 6 then 1 else if i < 8 then 2 else if i < 10 then 3 else 4)

/-- Two states the host cannot tell apart: every host read of 10_state.md R33 gives the same. -/
def sameToHost (s t : State) : Prop := ∀ r : HostReg, hostRead r s = hostRead r t

/-- The latches a waiting command has written and still reads (10_state.md R35; 41_ldid.md R106, R110) agree. -/
def sameLiveLatches (s t : State) : Prop :=
  match s.phase with
  | .idle => True
  | .randWait => t.latW = s.latW
  | .newWaitA => t.latT = s.latT
  | .newWaitB => t.latT = s.latT ∧ t.latA = s.latA

/-- Two states that agree in everything but the latches (10_state.md R35). -/
def sameButLatches (s t : State) : Prop := t = { s with latW := t.latW, latT := t.latT, latA := t.latA }

/-- Two states that agree in everything but latches that no command in progress has written. -/
def sameWork (s t : State) : Prop := sameButLatches s t ∧ sameLiveLatches s t

end Sys2Proof.Machine
end

