-- ==== Sys2Proof/Certificates/Slice0/Obligations.lean ====
section
/-! DEFINITION. The statements about the machine, from the numbered rules of spec/. A command is accepted only by a ready
block (10_state.md R43, 70_reset_and_hazards.md R171), so the statements about `exec` are for states `s` with
`s.ready = true`, and nothing else is asked of the state unless the statement says so. -/

open Sys2Proof Sys2Proof.Machine

/-! ### Encoding -/

/-- Words written out from 30_encoding.md R65 and R69 (95_test_vectors.md V-ENC). -/
def Obligations.SampleWordsDecode : Prop :=
  decode 0x01000000 = .ok .clear ∧ decode 0x02340C00 = .ok (.insert 52 12) ∧
  decode 0x03423E00 = .ok (.extract 66 62) ∧ decode 0x04000000 = .ok .rdbytes ∧
  decode 0x05000010 = .ok (.frombytes 16) ∧ decode 0x10004000 = .ok (.randbits 64) ∧
  decode 0x11000000 = .ok .new ∧ decode 0x12000000 = .ok .getts ∧ decode 0x16000000 = .ok .getrandb ∧
  decode 0x20000000 = .ok .format ∧ decode 0x21000024 = .ok (.parse 36) ∧
  decode 0x00000000 = .error .unassignedOpcode ∧ decode 0x06000000 = .error .unassignedOpcode ∧
  decode 0xFFFFFFFF = .error .unassignedOpcode ∧ decode 0x01000001 = .error .reservedField ∧
  decode 0x02340C01 = .error .reservedField ∧ decode 0x10010400 = .error .reservedField ∧
  decode 0x05010010 = .error .reservedField ∧ decode 0x20000100 = .error .reservedField

/-- Decoding the word of a well-formed command gives the command back, for every operand its fields can hold. -/
def Obligations.DecodeOfEncode : Prop :=
  ∀ i : Instr, i.wellFormed = true → decode (encode i) = .ok i

/-- A word that decodes is the word of the command it decodes to, and that command is well-formed. -/
def Obligations.EncodeOfDecode : Prop :=
  ∀ (w : CmdWord) (i : Instr), decode w = .ok i → i.wellFormed = true ∧ encode i = w

/-- R68: a word decodes exactly when a row of the opcode map matches it under its mask, it decodes to a command of that
row, and no two rows match one word. -/
def Obligations.DecodingFollowsTheOpcodeMap : Prop :=
  ∀ w : CmdWord,
    ((∃ i, decode w = .ok i) ↔ ∃ row ∈ opcodeMap, w &&& row.mask = row.bits) ∧
    (∀ i, decode w = .ok i → i.row ∈ opcodeMap ∧ w &&& i.row.mask = i.row.bits) ∧
    (∀ row ∈ opcodeMap, ∀ row' ∈ opcodeMap, w &&& row.mask = row.bits → w &&& row'.mask = row'.bits → row = row')

/-- A ready block with a word on its command port runs the command the word decodes to, on the state without that word.
The step adds nothing else. -/
def Obligations.StepRunsTheDecodedCommand : Prop :=
  ∀ (s : State) (w : CmdWord) (rest : List CmdWord) (i : Instr),
    s.ready = true → s.cmdPort = w :: rest → decode w = .ok i →
      step s = exec i { s with cmdPort := rest }

/-- R66, R67, R156: a word with an unassigned opcode, or with a nonzero field the map marks 0, sets ERR to 7 and has no
other effect: no wait, no port request. -/
def Obligations.IllegalWordsOnlyRaiseIllegalCommand : Prop :=
  ∀ (s : State) (w : CmdWord) (rest : List CmdWord), s.ready = true → s.cmdPort = w :: rest →
    (let opc := w.toNat / 2 ^ 24
     let off := w.toNat / 2 ^ 16 % 256
     let wid := w.toNat / 2 ^ 8 % 256
     let len := w.toNat % 256
     (opc = 0 ∨ (0x06 ≤ opc ∧ opc ≤ 0x0F) ∨ (0x17 ≤ opc ∧ opc ≤ 0x1F) ∨ 0x22 ≤ opc) ∨
     (opc ∈ [0x01, 0x04, 0x11, 0x12, 0x13, 0x14, 0x15, 0x16, 0x20] ∧ (off ≠ 0 ∨ wid ≠ 0 ∨ len ≠ 0)) ∨
     (opc ∈ [0x02, 0x03] ∧ len ≠ 0) ∨ (opc ∈ [0x05, 0x21] ∧ (off ≠ 0 ∨ wid ≠ 0)) ∨
     (opc = 0x10 ∧ (off ≠ 0 ∨ len ≠ 0))) →
      step s = .next { s with cmdPort := rest, err := 7 }

/-! ### Bit-buffer commands -/

/-- R81 CLEAR. -/
def Obligations.ClearZeroesTheBuffer : Prop :=
  ∀ s : State, s.ready = true →
    (∀ w : CmdWord, w.toNat / 2 ^ 24 = 0x01 →
      accept w s = if w = 0x01000000 then exec .clear s else .next { s with err := 7 }) ∧
    exec .clear s = .next { s with buf := 0, err := 0 }

/-- R82 INSERT, with the formula of `Place` in R12: the errors in check order, else only `BUF` and ERR are written. -/
def Obligations.InsertWritesItsRun : Prop :=
  ∀ s : State, s.ready = true →
    (∀ w : CmdWord, w.toNat / 2 ^ 24 = 0x02 →
      accept w s = if w.toNat % 256 = 0 then exec (.insert (w.toNat / 2 ^ 16 % 256) (w.toNat / 2 ^ 8 % 256)) s
        else .next { s with err := 7 }) ∧
    (∀ off wid : Nat, exec (.insert off wid) s = .next
      (if wid < 1 ∨ 64 < wid then { s with err := 1 }
       else if 128 < off + wid then { s with err := 2 }
       else if s.strict = true ∧ 2 ^ wid ≤ s.din.toNat then { s with err := 2 }
       else { s with
          buf := (s.buf &&& ~~~((((1 : Buf) <<< wid) - 1) <<< (128 - off - wid))) |||
            (BitVec.ofNat 128 (s.din.toNat % 2 ^ wid) <<< (128 - off - wid))
          err := 0 }))

/-- R48, R54: position by position, a completed INSERT puts the value's bits into its run, most significant first, and
leaves every other position of `BUF` and every other register unchanged. -/
def Obligations.InsertChangesOnlyItsRun : Prop :=
  ∀ (s : State) (off wid : Nat), s.ready = true → 1 ≤ wid → wid ≤ 64 → off + wid ≤ 128 →
    (s.strict = true → s.din.toNat < 2 ^ wid) →
    ∃ u : Buf, exec (.insert off wid) s = .next { s with buf := u, err := 0 } ∧
      ∀ p, p < 128 →
        bufBit u p = if off ≤ p ∧ p < off + wid then s.din.getLsbD (off + wid - 1 - p) else bufBit s.buf p

/-- R54: inserts into disjoint runs commute. -/
def Obligations.DisjointInsertsCommute : Prop :=
  ∀ (s a b c d : State) (v₁ v₂ : Value) (off₁ wid₁ off₂ wid₂ : Nat),
    s.ready = true → (off₁ + wid₁ ≤ off₂ ∨ off₂ + wid₂ ≤ off₁) →
    exec (.insert off₁ wid₁) { s with din := v₁ } = .next a → a.err = 0 →
    exec (.insert off₂ wid₂) { a with din := v₂ } = .next b → b.err = 0 →
    exec (.insert off₂ wid₂) { s with din := v₂ } = .next c → c.err = 0 →
    exec (.insert off₁ wid₁) { c with din := v₁ } = .next d → d.err = 0 →
    b.buf = d.buf

/-- R83: an EXTRACT of the run of a completed INSERT, with `BUF` as the INSERT left it, gives the value's low bits, and
under `INSERT_STRICT` the value itself. -/
def Obligations.ExtractAfterInsertGivesTheValue : Prop :=
  ∀ (s t t' : State) (off wid : Nat), s.ready = true →
    exec (.insert off wid) s = .next t → t.err = 0 → t'.ready = true → t'.buf = t.buf →
      exec (.extract off wid) t' = .next { t' with dout := BitVec.ofNat 64 (s.din.toNat % 2 ^ wid), err := 0 } ∧
      (s.strict = true → s.din.toNat < 2 ^ wid ∧
        exec (.extract off wid) t' = .next { t' with dout := s.din, err := 0 })

/-- R84 EXTRACT, with the formula of `Field` in R12. -/
def Obligations.ExtractReadsItsRun : Prop :=
  ∀ s : State, s.ready = true →
    (∀ w : CmdWord, w.toNat / 2 ^ 24 = 0x03 →
      accept w s = if w.toNat % 256 = 0 then exec (.extract (w.toNat / 2 ^ 16 % 256) (w.toNat / 2 ^ 8 % 256)) s
        else .next { s with err := 7 }) ∧
    (∀ off wid : Nat, exec (.extract off wid) s = .next
      (if wid < 1 ∨ 64 < wid then { s with err := 1 }
       else if 128 < off + wid then { s with err := 2 }
       else { s with dout := BitVec.ofNat 64 (s.buf.toNat / 2 ^ (128 - off - wid) % 2 ^ wid), err := 0 }))

/-- R48, R49, R50: a run of 1 to 64 bits anywhere in bounds is read as one big-endian number, at any alignment; bit `k` of
`DOUT` is the buffer's bit at position `off + wid - 1 - k`, and the bits above the width are zero. -/
def Obligations.ExtractIsBigEndianAtAnyOffset : Prop :=
  ∀ (s : State) (off wid : Nat), s.ready = true → 1 ≤ wid → wid ≤ 64 → off + wid ≤ 128 →
    ∃ v : Value, exec (.extract off wid) s = .next { s with dout := v, err := 0 } ∧
      ∀ k, k < 64 → v.getLsbD k = (decide (k < wid) && bufBit s.buf (off + wid - 1 - k))

/-- R85 RDBYTES, with the bytes of R11: byte `i` of `BUF` to `OUTB[i]`, and every other byte of `OUTB` unchanged. -/
def Obligations.RdbytesCopiesTheBytes : Prop :=
  ∀ s : State, s.ready = true →
    (∀ w : CmdWord, w.toNat / 2 ^ 24 = 0x04 →
      accept w s = if w = 0x04000000 then exec .rdbytes s else .next { s with err := 7 }) ∧
    (∃ m : Memory, exec .rdbytes s = .next { s with outb := m, outlen := 16, err := 0 } ∧
      ∀ i, m.read i = if i < 16 then BitVec.ofNat 8 (s.buf.toNat / 2 ^ (8 * (15 - i)) % 256) else s.outb.read i)

/-- R86 FROMBYTES: any length but 16 is a FormatError; else byte `i` of `BUF` is `INB[i]`. -/
def Obligations.FrombytesLoadsTheBytes : Prop :=
  ∀ s : State, s.ready = true →
    (∀ w : CmdWord, w.toNat / 2 ^ 24 = 0x05 →
      accept w s = if w.toNat / 2 ^ 8 % 2 ^ 16 = 0 then exec (.frombytes (w.toNat % 256)) s
        else .next { s with err := 7 }) ∧
    (∀ len : Nat, len ≠ 16 → exec (.frombytes len) s = .next { s with err := 4 }) ∧
    (∃ u : Buf, exec (.frombytes 16) s = .next { s with buf := u, err := 0 } ∧
      ∀ i, i < 16 → bufByte u i = s.inb.read i)

/-- R87: the byte round trip, both ways. -/
def Obligations.BytesRoundTrip : Prop :=
  (∀ s t t' u : State, s.ready = true → exec (.frombytes 16) s = .next t →
    t'.ready = true → t'.buf = t.buf → exec .rdbytes t' = .next u → ∀ i, i < 16 → u.outb.read i = s.inb.read i) ∧
  (∀ s t t' : State, s.ready = true → exec .rdbytes s = .next t →
    t'.ready = true → t'.buf = t.buf → (∀ i, i < 16 → t'.inb.read i = t.outb.read i) →
      exec (.frombytes 16) t' = .next { t' with err := 0 })

/-! ### LDID packer, draws and accessors -/

/-- R106 RANDBITS: at accept an illegal width is InvalidWidth with no request, a legal one sends one request and waits; the
response completes it. -/
def Obligations.RandbitsDrawsItsWidth : Prop :=
  (∀ s : State, s.ready = true →
    (∀ w : CmdWord, w.toNat / 2 ^ 24 = 0x10 →
      accept w s = if w.toNat / 2 ^ 16 % 256 = 0 ∧ w.toNat % 256 = 0 then exec (.randbits (w.toNat / 2 ^ 8 % 256)) s
        else .next { s with err := 7 }) ∧
    (∀ wid : Nat, exec (.randbits wid) s = .next
      (if wid < 1 ∨ 64 < wid then { s with err := 1 }
       else { s with
          latW := BitVec.ofNat 7 wid
          phase := .randWait
          requests := s.requests ++ [BitVec.ofNat 7 wid] }))) ∧
  (∀ (s : State) (rest : List Input), s.phase = .randWait →
    (s.inputs = .entropy .err :: rest → step s = .next { s with inputs := rest, phase := .idle, err := 3 }) ∧
    (∀ v, s.inputs = .entropy (.ok v) :: rest → step s = .next { s with
      inputs := rest
      phase := .idle
      dout := BitVec.ofNat 64 (v.toNat % 2 ^ s.latW.toNat)
      err := 0 }))

/-- R105, R107: with a port that answers `Ok(V)`, RANDBITS of any width 1 to 64 completes in two steps with `V mod 2^n`, and
at width 64 with the whole `V`; widths 0 and 65 to 255 fail in one step with no request. -/
def Obligations.DrawLaw : Prop :=
  ∀ (s : State) (n : Nat) (v : Value) (words : List CmdWord) (rest : List Input),
    s.ready = true → n < 256 → s.cmdPort = BitVec.ofNat 32 (0x10000000 + n * 2 ^ 8) :: words →
    s.inputs = .entropy (.ok v) :: rest →
    (1 ≤ n → n ≤ 64 → ∃ t, run 2 s = .next t ∧ t.dout.toNat = v.toNat % 2 ^ n ∧ t.err = 0 ∧
      t.phase = .idle ∧ t.requests = s.requests ++ [BitVec.ofNat 7 n] ∧ (n = 64 → t.dout = v)) ∧
    (n = 0 ∨ 65 ≤ n → step s = .next { s with cmdPort := words, err := 1 })

/-- R110 NEW: at accept one time read and the 12-bit request; then the two responses, the second only after the first
succeeded; `BUF` is written at the end with the formula of R103. -/
def Obligations.NewPacksTimeAndDraws : Prop :=
  (∀ s : State, s.ready = true →
    (∀ w : CmdWord, w.toNat / 2 ^ 24 = 0x11 →
      accept w s = if w = 0x11000000 then exec .new s else .next { s with err := 7 }) ∧
    (∃ t : Value, (∀ t₀ ts, s.timeScript = t₀ :: ts → t = t₀) ∧
      exec .new s = .next { s with
        timeScript := s.timeScript.tail
        timeReads := s.timeReads + 1
        latT := BitVec.ofNat 48 (t.toNat % 2 ^ 48)
        phase := .newWaitA
        requests := s.requests ++ [12] })) ∧
  (∀ (s : State) (rest : List Input), s.phase = .newWaitA →
    (s.inputs = .entropy .err :: rest → step s = .next { s with inputs := rest, phase := .idle, err := 3 }) ∧
    (∀ v, s.inputs = .entropy (.ok v) :: rest → step s = .next { s with
      inputs := rest
      latA := BitVec.ofNat 12 (v.toNat % 2 ^ 12)
      phase := .newWaitB
      requests := s.requests ++ [62] })) ∧
  (∀ (s : State) (rest : List Input), s.phase = .newWaitB →
    (s.inputs = .entropy .err :: rest → step s = .next { s with inputs := rest, phase := .idle, err := 3 }) ∧
    (∀ v, s.inputs = .entropy (.ok v) :: rest → step s = .next { s with
      inputs := rest
      phase := .idle
      buf := BitVec.ofNat 128 ((s.latT.toNat <<< 80) ||| (7 <<< 76) ||| (s.latA.toNat <<< 64) ||| (2 <<< 62) |||
        (v.toNat % 2 ^ 62))
      err := 0 }))

/-- R114: after a NEW from time `t` and draws `Va`, `Vb`, the five accessors give the truncated inputs and the tags. -/
def Obligations.AccessorsAfterNew : Prop :=
  ∀ (s : State) (t va vb : Value) (ts : List Value) (words : List CmdWord) (rest : List Input),
    s.ready = true → s.cmdPort = 0x11000000 :: words → s.timeScript = t :: ts →
    s.inputs = .entropy (.ok va) :: .entropy (.ok vb) :: rest →
    ∃ u, run 3 s = .next u ∧ u.err = 0 ∧ u.phase = .idle ∧
      ∀ u' : State, u'.ready = true → u'.buf = u.buf →
        exec .getts u' = .next { u' with dout := BitVec.ofNat 64 (t.toNat % 2 ^ 48), err := 0 } ∧
        exec .getver u' = .next { u' with dout := 7, err := 0 } ∧
        exec .getranda u' = .next { u' with dout := BitVec.ofNat 64 (va.toNat % 2 ^ 12), err := 0 } ∧
        exec .getvar u' = .next { u' with dout := 2, err := 0 } ∧
        exec .getrandb u' = .next { u' with dout := BitVec.ofNat 64 (vb.toNat % 2 ^ 62), err := 0 }

/-- R111, R108: a NEW whose first or second draw fails leaves `BUF` and every host-visible register but STATUS as they were,
reports RandomSourceError, and after a failed first draw has sent no second request. -/
def Obligations.FailedNewLeavesNoTrace : Prop :=
  ∀ (s : State) (words : List CmdWord) (rest : List Input), s.ready = true → s.cmdPort = 0x11000000 :: words →
    (s.inputs = .entropy .err :: rest →
      ∃ t, run 2 s = .next t ∧ t.buf = s.buf ∧ t.err = 3 ∧ t.phase = .idle ∧
        t.requests = s.requests ++ [12] ∧ t.timeReads = s.timeReads + 1 ∧
        ∀ r : HostReg, r ≠ .status → hostRead r t = hostRead r s) ∧
    (∀ va : Value, s.inputs = .entropy (.ok va) :: .entropy .err :: rest →
      ∃ t, run 3 s = .next t ∧ t.buf = s.buf ∧ t.err = 3 ∧ t.phase = .idle ∧
        t.requests = s.requests ++ [12, 62] ∧ t.timeReads = s.timeReads + 1 ∧
        ∀ r : HostReg, r ≠ .status → hostRead r t = hostRead r s)

/-- R112: the tags NEW writes stay until a command other than NEW overwrites `BUF` (or the block is reset): every step of
the machine that is neither keeps them, and the completing step of a NEW establishes them. A reset counts only in a step that
takes it: not one that is scheduled while a ready block accepts a word, and not a release with no reset asserted. -/
def Obligations.TagsSurviveEveryOtherStep : Prop :=
  (∀ s t : State, tagged s.buf → step s = .next t →
    (∀ w rest i, s.ready = true → s.cmdPort = w :: rest → decode w = .ok i → overwritesBuf i = false) →
    (s.ready = false ∨ s.cmdPort = [] → ∀ b, s.inputs.head? = some (.resetLine b) → b = false ∧ s.inReset = false) →
      tagged t.buf) ∧
  (∀ (s t : State) (r : EntropyResponse) (rest : List Input), s.phase = .newWaitB → s.inputs = .entropy r :: rest →
    step s = .next t → t.err = 0 → r ≠ .err → tagged t.buf)

/-- R102, R109: what NEW builds depends neither on what `BUF` held before nor on `INSERT_STRICT`. -/
def Obligations.NewIgnoresOldBufferAndStrictness : Prop :=
  (∀ (s t : State) (u : Buf) (k : Bool), s.ready = true → exec .new s = .next t →
    exec .new { s with buf := u, strict := k } = .next { t with buf := u, strict := k }) ∧
  (∀ (s t : State) (v va : Value) (u : Buf) (k : Bool) (rest : List Input), s.phase = .newWaitA →
    s.inputs = .entropy (.ok va) :: .entropy (.ok v) :: rest → run 2 s = .next t →
      run 2 { s with buf := u, strict := k } = .next { t with strict := k })

/-- R103: `Pack` is what inserting the five fields, in the source's order, into a zeroed buffer leaves. -/
def Obligations.PackIsFiveInserts : Prop :=
  ∀ (t : BitVec 48) (a : BitVec 12) (b : BitVec 62),
    placeAt (placeAt (placeAt (placeAt (placeAt 0 0 48 t.toNat) 48 4 7) 52 12 a.toNat) 64 2 2) 66 62 b.toNat =
      pack t a b ∧
    (pack t a b).toNat =
      (t.toNat <<< 80) ||| (7 <<< 76) ||| (a.toNat <<< 64) ||| (2 <<< 62) ||| b.toNat

/-- R115 to R119: the five accessors, with their encodings, the formula of `Field` in R12, and nothing else written. -/
def Obligations.AccessorsReadTheirFields : Prop :=
  ∀ s : State, s.ready = true →
    ∀ row ∈ [(Instr.getts, 0x12, 0, 48), (Instr.getver, 0x13, 48, 4), (Instr.getranda, 0x14, 52, 12),
        (Instr.getvar, 0x15, 64, 2), (Instr.getrandb, 0x16, 66, 62)],
      (∀ w : CmdWord, w.toNat / 2 ^ 24 = row.2.1 →
        accept w s = if w.toNat % 2 ^ 24 = 0 then exec row.1 s else .next { s with err := 7 }) ∧
      exec row.1 s = .next { s with
        dout := BitVec.ofNat 64 (s.buf.toNat / 2 ^ (128 - row.2.2.1 - row.2.2.2) % 2 ^ row.2.2.2)
        err := 0 } ∧
      exec row.1 s = exec (.extract row.2.2.1 row.2.2.2) s

/-! ### Bit-string codec -/

/-- R131: the character codes. -/
def Obligations.HexDigitTable : Prop :=
  (∀ n, n < 10 → hexLower n = BitVec.ofNat 8 (0x30 + n)) ∧
  (∀ n, n < 16 → 10 ≤ n → hexLower n = BitVec.ofNat 8 (0x61 + (n - 10))) ∧
  (∀ c : Byte, isHex c = true ↔
    (0x30 ≤ c.toNat ∧ c.toNat ≤ 0x39) ∨ (0x61 ≤ c.toNat ∧ c.toNat ≤ 0x66) ∨ (0x41 ≤ c.toNat ∧ c.toNat ≤ 0x46)) ∧
  (∀ c : Byte, (0x30 ≤ c.toNat ∧ c.toNat ≤ 0x39 → hexVal c = c.toNat - 0x30) ∧
    (0x61 ≤ c.toNat ∧ c.toNat ≤ 0x66 → hexVal c = c.toNat - 0x61 + 10) ∧
    (0x41 ≤ c.toNat ∧ c.toNat ≤ 0x46 → hexVal c = c.toNat - 0x41 + 10)) ∧
  hyphen = 0x2D

/-- R133, R134, R135 FORMAT: the 36 characters of `OUTB` by the layout of R133 (two digits per byte, hyphens at 8, 13, 18
and 23), every other byte of `OUTB` unchanged, and nothing else written but `OUTLEN` and ERR. -/
def Obligations.FormatWritesTheCanonicalText : Prop :=
  ∀ s : State, s.ready = true →
    (∀ w : CmdWord, w.toNat / 2 ^ 24 = 0x20 →
      accept w s = if w = 0x20000000 then exec .format s else .next { s with err := 7 }) ∧
    (∃ m : Memory, exec .format s = .next { s with outb := m, outlen := 36, err := 0 } ∧
      (∀ i, i < 16 → m.read (charIndex i) = hexLower ((bufByte s.buf i).toNat / 16) ∧
        m.read (charIndex i + 1) = hexLower ((bufByte s.buf i).toNat % 16)) ∧
      (∀ k ∈ [8, 13, 18, 23], m.read k = 0x2D) ∧ (∀ k, 36 ≤ k → m.read k = s.outb.read k))

/-- R136: the text FORMAT writes has the shape of the pattern: hyphens at 8, 13, 18 and 23, and a lowercase hex digit at each
of the other 32 places. -/
def Obligations.FormatMatchesThePattern : Prop :=
  ∀ s : State, s.ready = true → ∃ t, exec .format s = .next t ∧ t.outlen = 36 ∧
    ∀ k, k < 36 →
      if k = 8 ∨ k = 13 ∨ k = 18 ∨ k = 23 then t.outb.read k = 0x2D
      else (0x30 ≤ (t.outb.read k).toNat ∧ (t.outb.read k).toNat ≤ 0x39) ∨
        (0x61 ≤ (t.outb.read k).toNat ∧ (t.outb.read k).toNat ≤ 0x66)

/-- R120: the text of a tagged buffer shows `'7'` at index 14 and one of `'8'`, `'9'`, `'a'`, `'b'` at index 19. -/
def Obligations.TextOfAnLdidShowsItsTags : Prop :=
  ∀ s : State, s.ready = true → tagged s.buf → ∃ t, exec .format s = .next t ∧ t.outb.read 14 = 0x37 ∧
    (t.outb.read 19 = 0x38 ∨ t.outb.read 19 = 0x39 ∨ t.outb.read 19 = 0x61 ∨ t.outb.read 19 = 0x62)

/-- R137 to R139 PARSE: hyphens out; a length other than 32 or a byte that is no hex digit is a FormatError; else byte `i`
is made of digits `2i` and `2i+1`, whatever the tags. -/
def Obligations.ParseDecodesTheDigits : Prop :=
  ∀ s : State, s.ready = true →
    (∀ w : CmdWord, w.toNat / 2 ^ 24 = 0x21 →
      accept w s = if w.toNat / 2 ^ 8 % 2 ^ 16 = 0 then exec (.parse (w.toNat % 256)) s
        else .next { s with err := 7 }) ∧
    (∀ (len : Nat) (d : List Byte), d = ((List.range len).map s.inb.read).filter (fun c => decide (c ≠ 0x2D)) →
      (d.length ≠ 32 ∨ (∃ c ∈ d, isHex c = false) → exec (.parse len) s = .next { s with err := 4 }) ∧
      (d.length = 32 → (∀ c ∈ d, isHex c = true) →
        ∃ u : Buf, exec (.parse len) s = .next { s with buf := u, err := 0 } ∧
          ∀ i, i < 16 → (bufByte u i).toNat = hexVal (d.getD (2 * i) 0) * 16 + hexVal (d.getD (2 * i + 1) 0)))

/-- R140: PARSE of the text FORMAT wrote gives the buffer back, for every 128-bit value; and FORMAT after a successful PARSE
writes the lowercase form of the same 32 digits. -/
def Obligations.TextRoundTrip : Prop :=
  (∀ s t t' : State, s.ready = true → exec .format s = .next t → t'.ready = true →
    (∀ k, k < 36 → t'.inb.read k = t.outb.read k) →
      exec (.parse 36) t' = .next { t' with buf := s.buf, err := 0 }) ∧
  (∀ (s t t' u : State) (n : Nat), s.ready = true → exec (.parse n) s = .next t → t.err = 0 →
    t'.ready = true → t'.buf = t.buf → exec .format t' = .next u →
      ((List.range 36).map u.outb.read).filter (fun c => decide (c ≠ 0x2D)) =
        (((List.range n).map s.inb.read).filter (fun c => decide (c ≠ 0x2D))).map (fun c => hexLower (hexVal c)))

/-! ### Errors and status -/

/-- R150, R153: a command that ends with a nonzero ERR at its accept has written only ERR, and so has a waiting command
that ends with a nonzero ERR at a response, which also returns PHASE to IDLE. That the latches, which R153 calls discarded,
keep their contents in the second equality is the model's choice (log 7). -/
def Obligations.ErrorsWriteOnlyErr : Prop :=
  (∀ (s t : State) (i : Instr), s.ready = true → exec i s = .next t → t.phase = .idle → t.err ≠ 0 →
    t = { s with err := t.err }) ∧
  (∀ (s t : State) (r : EntropyResponse) (rest : List Input), s.phase ≠ .idle → s.inputs = .entropy r :: rest →
    step s = .next t → t.phase = .idle → t.err ≠ 0 → t = { s with inputs := rest, phase := .idle, err := 3 })

/-- R150: which command raises which error at its accept; a one-step command leaves 0 or one of its own codes. -/
def Obligations.ErrorsOfEachCommand : Prop :=
  ∀ (s t : State) (i : Instr), s.ready = true → exec i s = .next t → t.phase = .idle →
    t.err = 0 ∨
    (t.err = 1 ∧ ∃ a b, i = .insert a b ∨ i = .extract a b ∨ i = .randbits b) ∨
    (t.err = 2 ∧ ∃ a b, i = .insert a b ∨ i = .extract a b) ∨
    (t.err = 4 ∧ ∃ a, i = .parse a ∨ i = .frombytes a)

/-- R29, R31, R32: the bits of STATUS. -/
def Obligations.StatusBits : Prop :=
  ∀ s : State, (s.status.getLsbD 7 = true ↔ s.phase ≠ .idle) ∧ s.status.getLsbD 6 = s.strict ∧
    s.status.getLsbD 5 = false ∧ s.status.getLsbD 4 = false ∧ s.status.getLsbD 3 = false ∧
    s.status.toNat % 8 = s.err.toNat

/-- R32, R37: no step changes STRICT. -/
def Obligations.StrictNeverChanges : Prop :=
  ∀ s t : State, step s = .next t → t.strict = s.strict ∧ t.status.getLsbD 6 = s.status.getLsbD 6

/-- R31: BUSY is 1 exactly while PHASE is not IDLE, only RANDBITS and NEW set it, and every other command accepts and
completes in one step and leaves it 0. -/
def Obligations.OnlyWaitingCommandsSetBusy : Prop :=
  (∀ s : State, s.status.getLsbD 7 = true ↔ s.phase ≠ .idle) ∧
  (∀ (s : State) (i : Instr), s.ready = true → waits i = false →
    ∃ t, exec i s = .next t ∧ t.status.getLsbD 7 = false) ∧
  (∀ s t : State, s.status.getLsbD 7 = false → step s = .next t → t.status.getLsbD 7 = true →
    ∃ w rest i, s.ready = true ∧ s.cmdPort = w :: rest ∧ decode w = .ok i ∧ waits i = true)

/-- R25, R27: no command writes DIN or INB, at its accept or at a response it waits for. -/
def Obligations.CommandsLeaveDinAndInb : Prop :=
  (∀ (s t : State) (i : Instr), s.ready = true → exec i s = .next t → t.din = s.din ∧ t.inb = s.inb) ∧
  (∀ (s t : State) (r : EntropyResponse) (rest : List Input), s.ready = false → s.inputs = .entropy r :: rest →
    step s = .next t → t.din = s.din ∧ t.inb = s.inb)

/-- R30, R33, R52: as long as a command waits, BUF, DOUT, OUTB, OUTLEN and ERR hold what the commands completed before it
left: no step that ends in a waiting phase changes one of them. -/
def Obligations.WaitingStepsWriteNoResult : Prop :=
  ∀ s t : State, step s = .next t → t.phase ≠ .idle →
    t.buf = s.buf ∧ t.dout = s.dout ∧ t.outb = s.outb ∧ t.outlen = s.outlen ∧ t.err = s.err

/-- R53: EXTRACT, the accessors, RDBYTES and FORMAT leave BUF unchanged, and repeated on the same BUF they give the same
DOUT, or the same leading OUTLEN bytes of OUTB. -/
def Obligations.ReadsHaveNoSideEffect : Prop :=
  ∀ (s t s' t' : State) (i : Instr), s.ready = true → s'.ready = true → overwritesBuf i = false → waits i = false →
    exec i s = .next t → s'.buf = s.buf → exec i s' = .next t' →
    t.buf = s.buf ∧ t'.err = t.err ∧
      ((t.dout = s.dout ∧ t'.dout = s'.dout) ∨ t'.dout = t.dout) ∧
      ((t.outb = s.outb ∧ t.outlen = s.outlen ∧ t'.outb = s'.outb ∧ t'.outlen = s'.outlen) ∨
        (t'.outlen = t.outlen ∧ ∀ k, k < t.outlen.toNat → t'.outb.read k = t.outb.read k))

/-- R35: old latch contents are never visible. Two states that differ only in latches that no command in progress has written
(any latch of an idle block) stay so over any number of steps, through the accepts and the responses that read the latches,
and show the host the same, with the same BUF, PHASE and requests. And what a waiting command has written into the latches is
lost with it: after an `Err` response or a reset, states that differed in any latch are such a pair. -/
def Obligations.LatchesNeverShow : Prop :=
  (∀ (k : Nat) (s s' : State), sameWork s s' →
    ∃ t t', run k s = .next t ∧ run k s' = .next t' ∧ sameWork t t' ∧ sameToHost t t' ∧ t'.buf = t.buf ∧
      t'.phase = t.phase ∧ t'.requests = t.requests) ∧
  (∀ (s s' : State) (i : Input) (rest : List Input), s.phase ≠ .idle → sameButLatches s s' → s.inputs = i :: rest →
    i = .entropy .err ∨ i = .resetLine true →
    ∃ t t', step s = .next t ∧ step s' = .next t' ∧ t.phase = .idle ∧ sameWork t t')

/-! ### Ports, waiting and reset -/

/-- R43, R178: while a command waits no presented word is lost or accepted: every step from a waiting state keeps the words
on the command port, in order, and a word presented then is added after them; a ready block accepts the oldest. R43 speaks of
one word: that several stand there in order is the model's choice (log 5), and so is that they survive a reset, which the first
clause covers (log 6). -/
def Obligations.WaitingBlockHoldsPresentedWords : Prop :=
  (∀ s t : State, s.phase ≠ .idle → step s = .next t → ∃ added, t.cmdPort = s.cmdPort ++ added) ∧
  (∀ (s : State) (w : CmdWord) (rest : List Input), s.phase ≠ .idle → s.inputs = .present w :: rest →
    step s = .next { s with inputs := rest, cmdPort := s.cmdPort ++ [w] }) ∧
  (∀ (s : State) (w : CmdWord) (rest : List CmdWord), s.ready = true → s.cmdPort = w :: rest →
    step s = accept w { s with cmdPort := rest })

/-- R33: a host write changes the register it names and nothing else. -/
def Obligations.HostWritesOnlyTheirRegister : Prop :=
  ∀ (s : State) (rest : List Input), s.ready = false ∨ s.cmdPort = [] →
    (∀ v, s.inputs = .writeDin v :: rest → step s = .next { s with inputs := rest, din := v }) ∧
    (∀ (i : BitVec 8) (b : Byte), s.inputs = .writeInb i b :: rest →
      ∃ m : Memory, step s = .next { s with inputs := rest, inb := m } ∧
        ∀ k, m.read k = if k = i.toNat then b else s.inb.read k)

/-- R33: a host write to DIN or INB while a command waits does not affect that command: it makes no difference whether the
write comes before or after the response. -/
def Obligations.HostWritesDoNotTouchAWaitingCommand : Prop :=
  ∀ (s : State) (r : EntropyResponse) (v : Value) (i : BitVec 8) (b : Byte), s.phase ≠ .idle →
    takeInput (.entropy r) (takeInput (.writeDin v) s) = takeInput (.writeDin v) (takeInput (.entropy r) s) ∧
    takeInput (.entropy r) (takeInput (.writeInb i b) s) = takeInput (.writeInb i b) (takeInput (.entropy r) s)

/-- R172: a response that comes with no request outstanding is discarded. -/
def Obligations.ResponseWithoutRequestIsDiscarded : Prop :=
  ∀ (s : State) (r : EntropyResponse) (rest : List Input), s.phase = .idle → (s.inReset = true ∨ s.cmdPort = []) →
    s.inputs = .entropy r :: rest → step s = .next { s with inputs := rest }

/-- R42: every request is answered. With nothing scheduled outside, a waiting block is idle again after at most two steps,
whatever the free responses are (log 3: the answer of an unscheduled port is the model's free value). -/
def Obligations.EveryRequestIsAnswered : Prop :=
  ∀ s : State, s.phase ≠ .idle → s.inputs = [] →
    ∃ t, t.phase = .idle ∧ (run 1 s = .next t ∨ run 2 s = .next t)

/-- R173: with no word presented and nothing coming from outside a ready block does nothing. -/
def Obligations.NothingHappensWithoutACommand : Prop :=
  ∀ s : State, s.ready = true → s.cmdPort = [] → s.inputs = [] → step s = .next s

/-- R170: the state after reset. What stands at the ports is the model's choice (log 13) and no part of this statement. -/
def Obligations.ResetState : Prop :=
  State.reset.buf = 0 ∧ State.reset.din = 0 ∧ State.reset.dout = 0 ∧ (∀ i, State.reset.inb.read i = 0) ∧
  (∀ i, State.reset.outb.read i = 0) ∧ State.reset.outlen = 0 ∧ State.reset.err = 0 ∧
  State.reset.strict = Config.insertStrict ∧ State.reset.status.getLsbD 7 = false ∧ State.reset.phase = .idle ∧
  State.reset.latW = 0 ∧ State.reset.latT = 0 ∧ State.reset.latA = 0 ∧ State.reset.ready = true

/-- R170, R172: asserting and releasing the reset input, in any state in which the block is not about to accept a command,
also while a command waits, leaves every piece of the block's own state at its reset value and the block ready. STRICT is
hardwired. -/
def Obligations.ResetInputRestoresEverything : Prop :=
  ∀ (s : State) (rest : List Input), s.phase ≠ .idle ∨ s.inReset = true ∨ s.cmdPort = [] →
    s.inputs = .resetLine true :: .resetLine false :: rest →
    ∃ t, run 2 s = .next t ∧ t.buf = 0 ∧ t.din = 0 ∧ t.dout = 0 ∧ (∀ i, t.inb.read i = 0) ∧
      (∀ i, t.outb.read i = 0) ∧ t.outlen = 0 ∧ t.err = 0 ∧ t.strict = s.strict ∧ t.phase = .idle ∧
      t.latW = 0 ∧ t.latT = 0 ∧ t.latA = 0 ∧ t.status.toNat = (if s.strict then 64 else 0) ∧ t.ready = true

/-- R171: while reset is asserted the block accepts no command, reads no time and sends no request; released, it is in the
state of R170 and ready. The premise on PHASE is part of the invariant `State.Inv`. -/
def Obligations.NothingIsAcceptedUnderReset : Prop :=
  ∀ s t : State, s.inReset = true → s.phase = .idle → step s = .next t →
    (t.phase = .idle ∧ t.requests = s.requests ∧ t.timeReads = s.timeReads ∧ ∃ added, t.cmdPort = s.cmdPort ++ added) ∧
    (∀ rest, s.inputs = .resetLine false :: rest →
      t.ready = true ∧ t.buf = 0 ∧ t.din = 0 ∧ t.dout = 0 ∧ (∀ i, t.inb.read i = 0) ∧ (∀ i, t.outb.read i = 0) ∧
      t.outlen = 0 ∧ t.err = 0 ∧ t.strict = s.strict ∧ t.latW = 0 ∧ t.latT = 0 ∧ t.latA = 0)

/-! ### The machine -/

/-- R158, R159: no error is fatal; every step of every state answers a next state. -/
def Obligations.EveryStepAnswers : Prop :=
  ∀ s : State, ∃ t, step s = .next t

/-- The invariant `State.Inv` holds after reset. -/
def Obligations.ResetMeetsTheInvariant : Prop :=
  State.reset.Inv

/-- Every step keeps the invariant `State.Inv`: canonical byte stores of 256 and 36 bytes, legal OUTLEN (R28) and ERR (R29), a
waiting block's request the last one sent and of a width 1 to 64 (R40, R41), and no waiting under reset. -/
def Obligations.EveryStepKeepsTheInvariant : Prop :=
  ∀ s t : State, s.Inv → step s = .next t → t.Inv
end

