-- ==== Sys2Proof/Laws/Buffer.lean ====
section
/-! SUPPORT. The bit buffer's operations, bit by bit and byte by byte: one lemma for each says what it can do. -/

namespace Sys2Proof.Machine

/-- Buffer position `p` is integer bit `127 - p` (00_scope.md R11). -/
theorem bufBit_eq_getLsbD (u : Buf) {p : Nat} (h : p < 128) : bufBit u p = u.getLsbD (127 - p) := by
  unfold bufBit bufByte
  rw [BitVec.getLsbD_extractLsb']
  have h1 : 7 - p % 8 < 8 := by omega
  have h2 : 8 * (15 - p / 8) + (7 - p % 8) = 127 - p := by omega
  simp [h1, h2]

theorem fieldAt_lt (u : Buf) (off w : Nat) : fieldAt u off w < 2 ^ w := Nat.mod_lt _ (by positivity)

/-- Bit `i` of a field is the buffer's bit `i` places above the run's low end. -/
theorem fieldAt_testBit (u : Buf) (off w i : Nat) :
    (fieldAt u off w).testBit i = (decide (i < w) && u.getLsbD (128 - off - w + i)) := by
  simp [fieldAt, Nat.testBit_mod_two_pow, Nat.testBit_shiftRight, BitVec.getLsbD]

/-- A bit of the buffer after an insert of a run in bounds: the value's bit inside the run, the old bit outside. -/
theorem placeAt_getLsbD (u : Buf) {off w : Nat} (v : Nat) (h : off + w ≤ 128) {j : Nat} (hj : j < 128) :
    (placeAt u off w v).getLsbD j =
      if 128 - off - w ≤ j ∧ j < 128 - off then v.testBit (j - (128 - off - w)) else u.getLsbD j := by
  simp only [placeAt, BitVec.getLsbD_or, BitVec.getLsbD_and, BitVec.getLsbD_not, BitVec.getLsbD_shiftLeft,
    BitVec.getLsbD_ofNat, Nat.testBit_mod_two_pow, Nat.testBit_two_pow_sub_one, hj, decide_true, Bool.true_and]
  by_cases h1 : j < 128 - off - w
  · simp [h1, show ¬ (128 - off - w ≤ j) by omega]
  · have h2 : j - (128 - off - w) < 128 := by omega
    by_cases h3 : j < 128 - off
    · have h4 : j - (128 - off - w) < w := by omega
      simp [h1, h2, h3, h4, show 128 - off - w ≤ j by omega]
    · have h4 : ¬ (j - (128 - off - w) < w) := by omega
      simp [h1, h2, h3, h4]

/-- Reading a run just inserted gives the value's low bits. -/
theorem fieldAt_placeAt_same (u : Buf) {off w : Nat} (v : Nat) (h : off + w ≤ 128) :
    fieldAt (placeAt u off w v) off w = v % 2 ^ w := by
  apply Nat.eq_of_testBit_eq
  intro i
  rw [fieldAt_testBit, Nat.testBit_mod_two_pow]
  by_cases hi : i < w
  · rw [placeAt_getLsbD u v h (by omega), if_pos (by omega)]
    simp [hi]
  · simp [hi]

/-- A bit of a packed LDID: the five fields of 41_ldid.md R101. -/
theorem pack_getLsbD (t : BitVec 48) (a : BitVec 12) (b : BitVec 62) {j : Nat} (hj : j < 128) :
    (pack t a b).getLsbD j =
      if j < 62 then b.getLsbD j else if j < 64 then (2 : Nat).testBit (j - 62)
      else if j < 76 then a.getLsbD (j - 64) else if j < 80 then (7 : Nat).testBit (j - 76)
      else t.getLsbD (j - 80) := by
  have h2 : ∀ k, k < 128 → (2#128).getLsbD k = (2 : Nat).testBit k := by
    intro k hk; simp [BitVec.getLsbD]
  have h7 : ∀ k, k < 128 → (7#128).getLsbD k = (7 : Nat).testBit k := by
    intro k hk; simp [BitVec.getLsbD]
  have z2 : ∀ k, 2 ≤ k → (2 : Nat).testBit k = false := by
    intro k hk
    exact Nat.testBit_lt_two_pow (Nat.lt_of_lt_of_le (by decide : 2 < 2 ^ 2) (Nat.pow_le_pow_right (by decide) hk))
  have z7 : ∀ k, 4 ≤ k → (7 : Nat).testBit k = false := by
    intro k hk
    exact Nat.testBit_lt_two_pow (Nat.lt_of_lt_of_le (by decide : 7 < 2 ^ 4) (Nat.pow_le_pow_right (by decide) hk))
  have zt : ∀ k, 48 ≤ k → t.getLsbD k = false := fun k hk => BitVec.getLsbD_of_ge _ _ hk
  have za : ∀ k, 12 ≤ k → a.getLsbD k = false := fun k hk => BitVec.getLsbD_of_ge _ _ hk
  have zb : ∀ k, 62 ≤ k → b.getLsbD k = false := fun k hk => BitVec.getLsbD_of_ge _ _ hk
  simp only [pack, BitVec.ofNat_eq_ofNat, BitVec.getLsbD_or, BitVec.getLsbD_shiftLeft, BitVec.getLsbD_setWidth, hj,
    decide_true, Bool.true_and]
  by_cases c1 : j < 62
  · simp [c1, show j < 80 by omega, show j < 76 by omega, show j < 64 by omega]
  · by_cases c2 : j < 64
    · simp [c1, c2, show j < 80 by omega, show j < 76 by omega, zb j (by omega), h2 (j - 62) (by omega)]
    · by_cases c3 : j < 76
      · simp [c1, c2, c3, show j < 80 by omega, zb j (by omega), h2 (j - 62) (by omega), z2 (j - 62) (by omega),
          show j - 64 < 128 by omega]
      · by_cases c4 : j < 80
        · simp [c1, c2, c3, c4, zb j (by omega), h2 (j - 62) (by omega), z2 (j - 62) (by omega),
            za (j - 64) (by omega), h7 (j - 76) (by omega)]
        · simp [c1, c2, c3, c4, zb j (by omega), h2 (j - 62) (by omega), z2 (j - 62) (by omega),
            za (j - 64) (by omega), h7 (j - 76) (by omega), z7 (j - 76) (by omega), show j - 80 < 128 by omega]

/-! ### Bytes -/

@[simp] theorem bufBytes_length (u : Buf) : (bufBytes u).length = 16 := by simp [bufBytes]

@[simp] theorem bufBytes_getElem (u : Buf) (i : Nat) (h : i < (bufBytes u).length) : (bufBytes u)[i] = bufByte u i := by
  simp [bufBytes]

/-- The integer of R11, one byte at a time from the left. -/
theorem foldl_bytes_append (bs : List Byte) (b : Byte) :
    (bs ++ [b]).foldl (fun acc b => acc * 256 + b.toNat) 0 =
      bs.foldl (fun acc b => acc * 256 + b.toNat) 0 * 256 + b.toNat := by
  simp

theorem foldl_bytes_lt (bs : List Byte) : bs.foldl (fun acc (b : Byte) => acc * 256 + b.toNat) 0 < 256 ^ bs.length := by
  induction bs using List.reverseRecOn with
  | nil => simp
  | append_singleton bs b ih =>
    rw [foldl_bytes_append, List.length_append, List.length_singleton, Nat.pow_succ]
    have := b.isLt
    omega

/-- Byte `i` from the left of the integer of a byte list. -/
theorem foldl_bytes_div_mod (bs : List Byte) (i : Nat) (h : i < bs.length) :
    bs.foldl (fun acc (b : Byte) => acc * 256 + b.toNat) 0 / 256 ^ (bs.length - 1 - i) % 256 = bs[i].toNat := by
  induction bs using List.reverseRecOn with
  | nil => simp at h
  | append_singleton bs b ih =>
    rw [foldl_bytes_append]
    have hb := b.isLt
    simp only [List.length_append, List.length_singleton] at h ⊢
    by_cases hi : i = bs.length
    · subst hi
      simp
      omega
    · have hlt : i < bs.length := by omega
      have he : bs.length + 1 - 1 - i = (bs.length - 1 - i) + 1 := by omega
      rw [he, Nat.pow_succ', ← Nat.div_div_eq_div_mul, List.getElem_append_left hlt]
      have : (List.foldl (fun acc (b : Byte) => acc * 256 + b.toNat) 0 bs * 256 + b.toNat) / 256 =
          List.foldl (fun acc (b : Byte) => acc * 256 + b.toNat) 0 bs := by omega
      rw [this]
      exact ih hlt

/-- The bytes of a buffer built from 16 bytes are those bytes. -/
theorem bufByte_bufOfBytes {bs : List Byte} (h : bs.length = 16) {i : Nat} (hi : i < 16) :
    bufByte (bufOfBytes bs) i = bs[i] := by
  apply BitVec.eq_of_toNat_eq
  have hlt := foldl_bytes_lt bs
  have hdm := foldl_bytes_div_mod bs i (by omega)
  rw [h] at hlt
  simp only [h] at hdm
  have hm := Nat.mod_eq_of_lt (Nat.lt_of_lt_of_eq hlt (by decide : 256 ^ 16 = 2 ^ 128))
  rw [bufByte, BitVec.extractLsb'_toNat, bufOfBytes, BitVec.toNat_ofNat, hm, Nat.shiftRight_eq_div_pow, Nat.pow_mul, ← hdm]

/-- Two buffers with the same 16 bytes are equal. -/
theorem buf_eq_of_bufByte_eq {u v : Buf} (h : ∀ i, i < 16 → bufByte u i = bufByte v i) : u = v := by
  apply BitVec.eq_of_getLsbD_eq
  intro j hj
  have hp : 127 - j < 128 := by omega
  have hj' : 127 - (127 - j) = j := by omega
  rw [← hj', ← bufBit_eq_getLsbD u hp, ← bufBit_eq_getLsbD v hp, bufBit, bufBit, h _ (by omega)]

/-- `Bytes` and `U` are inverse (R11). -/
@[simp] theorem bufOfBytes_bufBytes (u : Buf) : bufOfBytes (bufBytes u) = u := by
  apply buf_eq_of_bufByte_eq
  intro i hi
  rw [bufByte_bufOfBytes (by simp) hi, bufBytes_getElem]

end Sys2Proof.Machine
end

