-- ==== Sys2Proof/Laws/Codec.lean ====
section
/-! SUPPORT. The characters of the text form: the digits, the length of `Canon`, and what `hexBytes` yields. -/

namespace Sys2Proof.Machine

/-- The lowercase digit of a nibble is a hex digit and has the nibble's value (42_string_codec.md R131). -/
theorem hexLower_spec {n : Nat} (h : n < 16) : isHex (hexLower n) = true ∧ hexVal (hexLower n) = n ∧ hexLower n ≠ hyphen := by
  interval_cases n <;> decide

theorem byteText_length (u : Buf) (i : Nat) :
    (byteText u i).length = if i = 4 ∨ i = 6 ∨ i = 8 ∨ i = 10 then 3 else 2 := by
  unfold byteText
  split <;> rfl

/-- `Canon` is 36 characters long (R134). -/
@[simp] theorem canon_length (u : Buf) : (canon u).length = 36 := by
  rw [canon, List.length_flatMap]
  simp only [byteText_length]
  decide

/-- The digits of a byte's text, hyphens out. -/
theorem byteText_filter (u : Buf) (i : Nat) :
    (byteText u i).filter (fun c => decide (c ≠ hyphen)) =
      [hexLower ((bufByte u i).toNat / 16), hexLower ((bufByte u i).toNat % 16)] := by
  have hb := (bufByte u i).isLt
  have h1 := (hexLower_spec (n := (bufByte u i).toNat / 16) (by omega)).2.2
  have h2 := (hexLower_spec (n := (bufByte u i).toNat % 16) (by omega)).2.2
  rw [byteText, List.filter_append]
  split <;> simp [h1, h2]

theorem hexBytes_length (d : List Byte) : (hexBytes d).length = d.length / 2 := by
  induction d using hexBytes.induct with
  | case1 a b rest ih => simp only [hexBytes, List.length_cons, ih]; omega
  | case2 d h =>
    match d, h with
    | [], _ => rfl
    | [_], _ => simp [hexBytes]
    | a :: b :: rest, h => exact absurd rfl (h a b rest)

/-- Byte `i` of a string of digits is made of its digits `2i` and `2i+1` (R137). -/
theorem hexBytes_getElem (d : List Byte) (i : Nat) (h : 2 * i + 1 < d.length) :
    (hexBytes d)[i]'(by rw [hexBytes_length]; omega) = BitVec.ofNat 8 (hexVal d[2 * i] * 16 + hexVal d[2 * i + 1]) := by
  induction d using hexBytes.induct generalizing i with
  | case1 a b rest ih =>
    cases i with
    | zero => simp [hexBytes]
    | succ i =>
      simp only [List.length_cons] at h
      simp only [hexBytes, List.getElem_cons_succ, Nat.mul_succ]
      exact ih i (by omega)
  | case2 d hd =>
    match d, hd with
    | [], _ => simp at h
    | [_], _ => simp at h
    | a :: b :: rest, hd => exact absurd rfl (hd a b rest)

end Sys2Proof.Machine
end

