-- ==== Sys2Proof/Laws/Decode.lean ====
section
/-! SUPPORT. The fields of a command word as arithmetic on the word, and a word from its fields (30_encoding.md R61). -/

namespace Sys2Proof

theorem packWord_toNat {opc off wid len : Nat} (ho : opc < 256) (hf : off < 256) (hw : wid < 256) (hl : len < 256) :
    (packWord opc off wid len).toNat = opc * 2 ^ 24 + off * 2 ^ 16 + wid * 2 ^ 8 + len := by
  unfold packWord
  simp only [BitVec.toNat_append, BitVec.toNat_ofNat]
  rw [Nat.mod_eq_of_lt (by omega : opc < 2 ^ 8), Nat.mod_eq_of_lt (by omega : off < 2 ^ 8),
    Nat.mod_eq_of_lt (by omega : wid < 2 ^ 8), Nat.mod_eq_of_lt (by omega : len < 2 ^ 8),
    ← Nat.shiftLeft_add_eq_or_of_lt (by omega : off < 2 ^ 8), ← Nat.shiftLeft_add_eq_or_of_lt (by omega : wid < 2 ^ 8),
    ← Nat.shiftLeft_add_eq_or_of_lt (by omega : len < 2 ^ 8)]
  simp only [Nat.shiftLeft_eq]
  omega

theorem opcField_eq (w : CmdWord) : opcField w = w.toNat / 2 ^ 24 := by
  have := w.isLt
  simp only [opcField, BitVec.extractLsb'_toNat, Nat.shiftRight_eq_div_pow]
  omega

theorem offField_eq (w : CmdWord) : offField w = w.toNat / 2 ^ 16 % 256 := by
  simp [offField, BitVec.extractLsb'_toNat, Nat.shiftRight_eq_div_pow]

theorem widField_eq (w : CmdWord) : widField w = w.toNat / 2 ^ 8 % 256 := by
  simp [widField, BitVec.extractLsb'_toNat, Nat.shiftRight_eq_div_pow]

theorem lenField_eq (w : CmdWord) : lenField w = w.toNat % 256 := by
  simp [lenField, BitVec.extractLsb'_toNat]

/-- The four fields of a packed word. -/
theorem fields_packWord {opc off wid len : Nat} (ho : opc < 256) (hf : off < 256) (hw : wid < 256) (hl : len < 256) :
    opcField (packWord opc off wid len) = opc ∧ offField (packWord opc off wid len) = off ∧
      widField (packWord opc off wid len) = wid ∧ lenField (packWord opc off wid len) = len := by
  rw [opcField_eq, offField_eq, widField_eq, lenField_eq, packWord_toNat ho hf hw hl]
  omega

/-- A word is packed from its own fields. -/
theorem packWord_fields (w : CmdWord) : packWord (opcField w) (offField w) (widField w) (lenField w) = w := by
  have hw := w.isLt
  apply BitVec.eq_of_toNat_eq
  rw [packWord_toNat (by rw [opcField_eq]; omega) (by rw [offField_eq]; omega) (by rw [widField_eq]; omega)
    (by rw [lenField_eq]; omega), opcField_eq, offField_eq, widField_eq, lenField_eq]
  omega

end Sys2Proof
end

