-- ==== Sys2Proof/Laws/Memory.lean ====
section
/-! SUPPORT. The laws of the byte stores: what a write changes, and that every operation keeps the canonical form. -/

namespace Sys2Proof.Machine

@[simp] theorem Memory.read_nil (a : Nat) : Memory.read [] a = Memory.unlisted := rfl

theorem Memory.read_cons (c : Host.Cell) (m : Memory) (a : Nat) :
    Memory.read (c :: m) a = if a = c.1 then c.2 else Memory.read m a := rfl

/-- Removing the entries of index `a` makes it read as unlisted and changes no other index. -/
theorem Memory.read_filter (m : Memory) (a x : Nat) :
    Memory.read (m.filter (fun c => decide (c.1 ≠ a))) x = if x = a then Memory.unlisted else m.read x := by
  induction m with
  | nil => simp
  | cons c m ih =>
    by_cases h : c.1 = a
    · rw [List.filter_cons_of_neg (by simp [h]), ih, Memory.read_cons]
      split <;> simp_all
    · rw [List.filter_cons_of_pos (by simp [h]), Memory.read_cons, Memory.read_cons, ih]
      split <;> split <;> simp_all

/-- Placing an entry whose index is not listed makes it readable and changes no other index. -/
theorem Memory.read_place (m : Memory) (a : Nat) (v : Byte) (x : Nat) (h : ∀ c ∈ m, c.1 ≠ a) :
    Memory.read (Memory.place m a v) x = if x = a then v else m.read x := by
  induction m with
  | nil => rfl
  | cons c m ih =>
    have hc := h c (by simp)
    have ih := ih (fun d hd => h d (by simp [hd]))
    simp only [Memory.place]
    split
    · simp [Memory.read_cons]
    · rw [Memory.read_cons, ih, Memory.read_cons]
      split <;> split <;> simp_all

/-- A read after a write: the value written at its index, and every other index as before. -/
@[simp] theorem Memory.read_write (m : Memory) (a : Nat) (v : Byte) (x : Nat) :
    (m.write a v).read x = if x = a then v else m.read x := by
  unfold Memory.write
  dsimp only
  split
  · rw [Memory.read_filter]
    simp_all
  · rw [Memory.read_place _ _ _ _ (by intro c hc; simpa using (List.mem_filter.1 hc).2), Memory.read_filter]
    split <;> simp_all

/-- A read after writing consecutive bytes. -/
theorem Memory.read_writeBytes (bs : List Byte) (m : Memory) (a x : Nat) :
    (m.writeBytes a bs).read x = if h : a ≤ x ∧ x < a + bs.length then bs[x - a]'(by omega) else m.read x := by
  induction bs generalizing m a with
  | nil => simp [Memory.writeBytes]
  | cons b bs ih =>
    rw [Memory.writeBytes, ih, Memory.read_write]
    by_cases hx : x = a
    · subst hx
      simp
    · by_cases hi : a + 1 ≤ x ∧ x < a + 1 + bs.length
      · have : x - a = (x - (a + 1)) + 1 := by omega
        rw [dif_pos hi, dif_pos ⟨by omega, by simp; omega⟩]
        simp [this]
      · rw [dif_neg hi, dif_neg (by simp; omega), if_neg hx]

@[simp] theorem Memory.readBytes_length (m : Memory) (a n : Nat) : (m.readBytes a n).length = n := by
  simp [Memory.readBytes]

@[simp] theorem Memory.readBytes_getElem (m : Memory) (a n i : Nat) (h : i < (m.readBytes a n).length) :
    (m.readBytes a n)[i] = m.read (a + i) := by
  simp [Memory.readBytes]

/-! ### The canonical form -/

theorem Memory.wfFrom_cons (lo size : Nat) (c : Host.Cell) (m : Memory) :
    Memory.wfFrom lo size (c :: m) = true ↔
      lo ≤ c.1 ∧ c.1 < size ∧ c.2 ≠ Memory.unlisted ∧ Memory.wfFrom (c.1 + 1) size m = true := by
  simp [Memory.wfFrom, and_assoc]

theorem Memory.wfFrom_mono {lo lo' size : Nat} {m : Memory} (h : lo' ≤ lo) (hm : Memory.wfFrom lo size m = true) :
    Memory.wfFrom lo' size m = true := by
  cases m with
  | nil => rfl
  | cons c m =>
    rw [Memory.wfFrom_cons] at hm ⊢
    exact ⟨by omega, hm.2⟩

theorem Memory.wfFrom_filter {lo size : Nat} {m : Memory} (p : Host.Cell → Bool) (hm : Memory.wfFrom lo size m = true) :
    Memory.wfFrom lo size (m.filter p) = true := by
  induction m generalizing lo with
  | nil => rfl
  | cons c m ih =>
    rw [Memory.wfFrom_cons] at hm
    by_cases h : p c
    · rw [List.filter_cons_of_pos h, Memory.wfFrom_cons]
      exact ⟨hm.1, hm.2.1, hm.2.2.1, ih hm.2.2.2⟩
    · rw [List.filter_cons_of_neg h]
      exact ih (Memory.wfFrom_mono (by omega) hm.2.2.2)

theorem Memory.wfFrom_place {lo size a : Nat} {v : Byte} {m : Memory} (hm : Memory.wfFrom lo size m = true)
    (hn : ∀ c ∈ m, c.1 ≠ a) (hlo : lo ≤ a) (ha : a < size) (hv : v ≠ Memory.unlisted) :
    Memory.wfFrom lo size (Memory.place m a v) = true := by
  induction m generalizing lo with
  | nil => simp [Memory.place, Memory.wfFrom, hlo, ha, hv]
  | cons c m ih =>
    have hc := hn c (by simp)
    rw [Memory.wfFrom_cons] at hm
    simp only [Memory.place]
    split
    · rename_i hlt
      rw [Memory.wfFrom_cons]
      refine ⟨hlo, ha, hv, ?_⟩
      rw [Memory.wfFrom_cons]
      exact ⟨by assumption, hm.2⟩
    · rename_i hlt
      rw [Memory.wfFrom_cons]
      exact ⟨hm.1, hm.2.1, hm.2.2.1, ih hm.2.2.2 (fun d hd => hn d (by simp [hd])) (by simp_all; omega)⟩

/-- A write inside the store keeps the canonical form. -/
theorem Memory.wf_write {m : Memory} {size a : Nat} (v : Byte) (hm : m.wf size = true) (ha : a < size) :
    (m.write a v).wf size = true := by
  unfold Memory.write Memory.wf at *
  dsimp only
  split
  · exact Memory.wfFrom_filter _ hm
  · exact Memory.wfFrom_place (Memory.wfFrom_filter _ hm)
      (by intro c hc; simpa using (List.mem_filter.1 hc).2) (Nat.zero_le _) ha (by assumption)

/-- Writing consecutive bytes inside the store keeps the canonical form. -/
theorem Memory.wf_writeBytes {bs : List Byte} {m : Memory} {size a : Nat} (hm : m.wf size = true)
    (ha : a + bs.length ≤ size) : (m.writeBytes a bs).wf size = true := by
  induction bs generalizing m a with
  | nil => exact hm
  | cons b bs ih =>
    simp only [List.length_cons] at ha
    exact ih (Memory.wf_write b hm (by omega)) (by omega)

theorem Memory.read_eq_unlisted_of_lt {lo size a : Nat} {m : Memory} (hm : Memory.wfFrom lo size m = true)
    (h : a < lo) : m.read a = Memory.unlisted := by
  induction m generalizing lo with
  | nil => rfl
  | cons c m ih =>
    rw [Memory.wfFrom_cons] at hm
    rw [Memory.read_cons, if_neg (by omega)]
    exact ih hm.2.2.2 (by omega)

/-- Two canonical stores that read alike are the same data. -/
theorem Memory.eq_of_read_eq {lo size : Nat} {m n : Memory} (hm : Memory.wfFrom lo size m = true)
    (hn : Memory.wfFrom lo size n = true) (h : ∀ a, m.read a = n.read a) : m = n := by
  induction m generalizing lo n with
  | nil =>
    cases n with
    | nil => rfl
    | cons d n =>
      rw [Memory.wfFrom_cons] at hn
      have := h d.1
      rw [Memory.read_nil, Memory.read_cons, if_pos rfl] at this
      exact absurd this.symm hn.2.2.1
  | cons c m ih =>
    rw [Memory.wfFrom_cons] at hm
    cases n with
    | nil =>
      have := h c.1
      rw [Memory.read_nil, Memory.read_cons, if_pos rfl] at this
      exact absurd this hm.2.2.1
    | cons d n =>
      rw [Memory.wfFrom_cons] at hn
      have hcd : c.1 = d.1 := by
        by_contra hne
        rcases Nat.lt_or_gt_of_ne hne with hlt | hlt
        · have := h c.1
          rw [Memory.read_cons, if_pos rfl, Memory.read_cons, if_neg (by omega),
            Memory.read_eq_unlisted_of_lt hn.2.2.2 (by omega)] at this
          exact hm.2.2.1 this
        · have := h d.1
          rw [Memory.read_cons, if_neg (by omega), Memory.read_cons, if_pos rfl,
            Memory.read_eq_unlisted_of_lt hm.2.2.2 (by omega)] at this
          exact hn.2.2.1 this.symm
      have hv : c.2 = d.2 := by
        have := h c.1
        rwa [Memory.read_cons, if_pos rfl, Memory.read_cons, if_pos hcd] at this
      have hrest : m = n := by
        refine ih hm.2.2.2 (by rw [hcd]; exact hn.2.2.2) (fun a => ?_)
        by_cases ha : a = c.1
        · rw [Memory.read_eq_unlisted_of_lt hm.2.2.2 (by omega), Memory.read_eq_unlisted_of_lt hn.2.2.2 (by omega)]
        · have := h a
          rwa [Memory.read_cons, if_neg ha, Memory.read_cons, if_neg (by omega)] at this
      rw [hrest, Prod.ext hcd hv]

/-- The stores of the state after reset are canonical. -/
theorem State.reset_stores_wf : State.reset.inb.wf 256 = true ∧ State.reset.outb.wf 36 = true := ⟨rfl, rfl⟩

end Sys2Proof.Machine
end

