-- ==== Sys2Proof/Laws/State.lean ====
section
/-! SUPPORT. What each named update of State does to each field: true by rfl, in the simp set, so that no proof unfolds a
record update. -/

namespace Sys2Proof.Machine

@[simp] theorem completed_buf (s : State) : (completed s).buf = s.buf := rfl
@[simp] theorem completed_din (s : State) : (completed s).din = s.din := rfl
@[simp] theorem completed_dout (s : State) : (completed s).dout = s.dout := rfl
@[simp] theorem completed_inb (s : State) : (completed s).inb = s.inb := rfl
@[simp] theorem completed_outb (s : State) : (completed s).outb = s.outb := rfl
@[simp] theorem completed_outlen (s : State) : (completed s).outlen = s.outlen := rfl
@[simp] theorem completed_err (s : State) : (completed s).err = 0 := rfl
@[simp] theorem completed_strict (s : State) : (completed s).strict = s.strict := rfl
@[simp] theorem completed_phase (s : State) : (completed s).phase = s.phase := rfl
@[simp] theorem completed_latW (s : State) : (completed s).latW = s.latW := rfl
@[simp] theorem completed_latT (s : State) : (completed s).latT = s.latT := rfl
@[simp] theorem completed_latA (s : State) : (completed s).latA = s.latA := rfl
@[simp] theorem completed_inReset (s : State) : (completed s).inReset = s.inReset := rfl
@[simp] theorem completed_cmdPort (s : State) : (completed s).cmdPort = s.cmdPort := rfl
@[simp] theorem completed_inputs (s : State) : (completed s).inputs = s.inputs := rfl
@[simp] theorem completed_timeScript (s : State) : (completed s).timeScript = s.timeScript := rfl
@[simp] theorem completed_timeReads (s : State) : (completed s).timeReads = s.timeReads := rfl
@[simp] theorem completed_requests (s : State) : (completed s).requests = s.requests := rfl

@[simp] theorem raised_buf (e : ErrorKind) (s : State) : (raised e s).buf = s.buf := rfl
@[simp] theorem raised_din (e : ErrorKind) (s : State) : (raised e s).din = s.din := rfl
@[simp] theorem raised_dout (e : ErrorKind) (s : State) : (raised e s).dout = s.dout := rfl
@[simp] theorem raised_inb (e : ErrorKind) (s : State) : (raised e s).inb = s.inb := rfl
@[simp] theorem raised_outb (e : ErrorKind) (s : State) : (raised e s).outb = s.outb := rfl
@[simp] theorem raised_outlen (e : ErrorKind) (s : State) : (raised e s).outlen = s.outlen := rfl
@[simp] theorem raised_err (e : ErrorKind) (s : State) : (raised e s).err = e.code := rfl
@[simp] theorem raised_strict (e : ErrorKind) (s : State) : (raised e s).strict = s.strict := rfl
@[simp] theorem raised_phase (e : ErrorKind) (s : State) : (raised e s).phase = s.phase := rfl
@[simp] theorem raised_latW (e : ErrorKind) (s : State) : (raised e s).latW = s.latW := rfl
@[simp] theorem raised_latT (e : ErrorKind) (s : State) : (raised e s).latT = s.latT := rfl
@[simp] theorem raised_latA (e : ErrorKind) (s : State) : (raised e s).latA = s.latA := rfl
@[simp] theorem raised_inReset (e : ErrorKind) (s : State) : (raised e s).inReset = s.inReset := rfl
@[simp] theorem raised_cmdPort (e : ErrorKind) (s : State) : (raised e s).cmdPort = s.cmdPort := rfl
@[simp] theorem raised_inputs (e : ErrorKind) (s : State) : (raised e s).inputs = s.inputs := rfl
@[simp] theorem raised_timeScript (e : ErrorKind) (s : State) : (raised e s).timeScript = s.timeScript := rfl
@[simp] theorem raised_timeReads (e : ErrorKind) (s : State) : (raised e s).timeReads = s.timeReads := rfl
@[simp] theorem raised_requests (e : ErrorKind) (s : State) : (raised e s).requests = s.requests := rfl

@[simp] theorem readField_buf (off wid : Nat) (s : State) : (readField off wid s).buf = s.buf := rfl
@[simp] theorem readField_din (off wid : Nat) (s : State) : (readField off wid s).din = s.din := rfl
@[simp] theorem readField_dout (off wid : Nat) (s : State) : (readField off wid s).dout = BitVec.ofNat 64 (fieldAt s.buf off wid) := rfl
@[simp] theorem readField_inb (off wid : Nat) (s : State) : (readField off wid s).inb = s.inb := rfl
@[simp] theorem readField_outb (off wid : Nat) (s : State) : (readField off wid s).outb = s.outb := rfl
@[simp] theorem readField_outlen (off wid : Nat) (s : State) : (readField off wid s).outlen = s.outlen := rfl
@[simp] theorem readField_err (off wid : Nat) (s : State) : (readField off wid s).err = s.err := rfl
@[simp] theorem readField_strict (off wid : Nat) (s : State) : (readField off wid s).strict = s.strict := rfl
@[simp] theorem readField_phase (off wid : Nat) (s : State) : (readField off wid s).phase = s.phase := rfl
@[simp] theorem readField_latW (off wid : Nat) (s : State) : (readField off wid s).latW = s.latW := rfl
@[simp] theorem readField_latT (off wid : Nat) (s : State) : (readField off wid s).latT = s.latT := rfl
@[simp] theorem readField_latA (off wid : Nat) (s : State) : (readField off wid s).latA = s.latA := rfl
@[simp] theorem readField_inReset (off wid : Nat) (s : State) : (readField off wid s).inReset = s.inReset := rfl
@[simp] theorem readField_cmdPort (off wid : Nat) (s : State) : (readField off wid s).cmdPort = s.cmdPort := rfl
@[simp] theorem readField_inputs (off wid : Nat) (s : State) : (readField off wid s).inputs = s.inputs := rfl
@[simp] theorem readField_timeScript (off wid : Nat) (s : State) : (readField off wid s).timeScript = s.timeScript := rfl
@[simp] theorem readField_timeReads (off wid : Nat) (s : State) : (readField off wid s).timeReads = s.timeReads := rfl
@[simp] theorem readField_requests (off wid : Nat) (s : State) : (readField off wid s).requests = s.requests := rfl

@[simp] theorem afterTimeRead_buf (s : State) : (afterTimeRead s).buf = s.buf := rfl
@[simp] theorem afterTimeRead_din (s : State) : (afterTimeRead s).din = s.din := rfl
@[simp] theorem afterTimeRead_dout (s : State) : (afterTimeRead s).dout = s.dout := rfl
@[simp] theorem afterTimeRead_inb (s : State) : (afterTimeRead s).inb = s.inb := rfl
@[simp] theorem afterTimeRead_outb (s : State) : (afterTimeRead s).outb = s.outb := rfl
@[simp] theorem afterTimeRead_outlen (s : State) : (afterTimeRead s).outlen = s.outlen := rfl
@[simp] theorem afterTimeRead_err (s : State) : (afterTimeRead s).err = s.err := rfl
@[simp] theorem afterTimeRead_strict (s : State) : (afterTimeRead s).strict = s.strict := rfl
@[simp] theorem afterTimeRead_phase (s : State) : (afterTimeRead s).phase = s.phase := rfl
@[simp] theorem afterTimeRead_latW (s : State) : (afterTimeRead s).latW = s.latW := rfl
@[simp] theorem afterTimeRead_latT (s : State) : (afterTimeRead s).latT = s.latT := rfl
@[simp] theorem afterTimeRead_latA (s : State) : (afterTimeRead s).latA = s.latA := rfl
@[simp] theorem afterTimeRead_inReset (s : State) : (afterTimeRead s).inReset = s.inReset := rfl
@[simp] theorem afterTimeRead_cmdPort (s : State) : (afterTimeRead s).cmdPort = s.cmdPort := rfl
@[simp] theorem afterTimeRead_inputs (s : State) : (afterTimeRead s).inputs = s.inputs := rfl
@[simp] theorem afterTimeRead_timeScript (s : State) : (afterTimeRead s).timeScript = s.timeScript.tail := rfl
@[simp] theorem afterTimeRead_timeReads (s : State) : (afterTimeRead s).timeReads = s.timeReads + 1 := rfl
@[simp] theorem afterTimeRead_requests (s : State) : (afterTimeRead s).requests = s.requests := rfl

@[simp] theorem sendRequest_buf (n : Nat) (s : State) : (sendRequest n s).buf = s.buf := rfl
@[simp] theorem sendRequest_din (n : Nat) (s : State) : (sendRequest n s).din = s.din := rfl
@[simp] theorem sendRequest_dout (n : Nat) (s : State) : (sendRequest n s).dout = s.dout := rfl
@[simp] theorem sendRequest_inb (n : Nat) (s : State) : (sendRequest n s).inb = s.inb := rfl
@[simp] theorem sendRequest_outb (n : Nat) (s : State) : (sendRequest n s).outb = s.outb := rfl
@[simp] theorem sendRequest_outlen (n : Nat) (s : State) : (sendRequest n s).outlen = s.outlen := rfl
@[simp] theorem sendRequest_err (n : Nat) (s : State) : (sendRequest n s).err = s.err := rfl
@[simp] theorem sendRequest_strict (n : Nat) (s : State) : (sendRequest n s).strict = s.strict := rfl
@[simp] theorem sendRequest_phase (n : Nat) (s : State) : (sendRequest n s).phase = s.phase := rfl
@[simp] theorem sendRequest_latW (n : Nat) (s : State) : (sendRequest n s).latW = s.latW := rfl
@[simp] theorem sendRequest_latT (n : Nat) (s : State) : (sendRequest n s).latT = s.latT := rfl
@[simp] theorem sendRequest_latA (n : Nat) (s : State) : (sendRequest n s).latA = s.latA := rfl
@[simp] theorem sendRequest_inReset (n : Nat) (s : State) : (sendRequest n s).inReset = s.inReset := rfl
@[simp] theorem sendRequest_cmdPort (n : Nat) (s : State) : (sendRequest n s).cmdPort = s.cmdPort := rfl
@[simp] theorem sendRequest_inputs (n : Nat) (s : State) : (sendRequest n s).inputs = s.inputs := rfl
@[simp] theorem sendRequest_timeScript (n : Nat) (s : State) : (sendRequest n s).timeScript = s.timeScript := rfl
@[simp] theorem sendRequest_timeReads (n : Nat) (s : State) : (sendRequest n s).timeReads = s.timeReads := rfl
@[simp] theorem sendRequest_requests (n : Nat) (s : State) : (sendRequest n s).requests = s.requests ++ [BitVec.ofNat 7 n] := rfl

@[simp] theorem resetRegisters_buf (s : State) : (resetRegisters s).buf = 0 := rfl
@[simp] theorem resetRegisters_din (s : State) : (resetRegisters s).din = 0 := rfl
@[simp] theorem resetRegisters_dout (s : State) : (resetRegisters s).dout = 0 := rfl
@[simp] theorem resetRegisters_inb (s : State) : (resetRegisters s).inb = [] := rfl
@[simp] theorem resetRegisters_outb (s : State) : (resetRegisters s).outb = [] := rfl
@[simp] theorem resetRegisters_outlen (s : State) : (resetRegisters s).outlen = 0 := rfl
@[simp] theorem resetRegisters_err (s : State) : (resetRegisters s).err = 0 := rfl
@[simp] theorem resetRegisters_strict (s : State) : (resetRegisters s).strict = s.strict := rfl
@[simp] theorem resetRegisters_phase (s : State) : (resetRegisters s).phase = .idle := rfl
@[simp] theorem resetRegisters_latW (s : State) : (resetRegisters s).latW = 0 := rfl
@[simp] theorem resetRegisters_latT (s : State) : (resetRegisters s).latT = 0 := rfl
@[simp] theorem resetRegisters_latA (s : State) : (resetRegisters s).latA = 0 := rfl
@[simp] theorem resetRegisters_inReset (s : State) : (resetRegisters s).inReset = s.inReset := rfl
@[simp] theorem resetRegisters_cmdPort (s : State) : (resetRegisters s).cmdPort = s.cmdPort := rfl
@[simp] theorem resetRegisters_inputs (s : State) : (resetRegisters s).inputs = s.inputs := rfl
@[simp] theorem resetRegisters_timeScript (s : State) : (resetRegisters s).timeScript = s.timeScript := rfl
@[simp] theorem resetRegisters_timeReads (s : State) : (resetRegisters s).timeReads = s.timeReads := rfl
@[simp] theorem resetRegisters_requests (s : State) : (resetRegisters s).requests = s.requests := rfl

end Sys2Proof.Machine
end

