-- ==== Sys2Proof/Laws/Operands.lean ====
section
/-! SUPPORT. When the operand checks answer true, as propositions. -/

namespace Sys2Proof.Machine

@[simp] theorem badWidth_iff (wid : Nat) : badWidth wid = true ↔ wid < 1 ∨ 64 < wid := by simp [badWidth]

@[simp] theorem runPastEnd_iff (off wid : Nat) : runPastEnd off wid = true ↔ 128 < off + wid := by simp [runPastEnd]

@[simp] theorem overWide_iff (s : State) (wid : Nat) :
    overWide s wid = true ↔ 2 ^ wid ≤ s.din.toNat ∧ s.strict = true := by
  rw [overWide, Bool.and_eq_true, decide_eq_true_eq, insertOperand]

@[simp] theorem ready_iff (s : State) : s.ready = true ↔ s.phase = .idle ∧ s.inReset = false := by simp [State.ready]

end Sys2Proof.Machine
end

