-- ==== Sys2Proof/Laws/PerInstr.lean ====
section
/-! SUPPORT. The family `TableRow`, one lemma per command: a well-formed command's word carries the fixed bits of its row of
the opcode map (30_encoding.md R65). -/

namespace Sys2Proof.Laws.TableRow

/-- The word of a well-formed command, under its row's mask, is its row's match. -/
def Statement (i : Instr) : Prop := i.wellFormed = true → encode i &&& i.row.mask = i.row.bits

/-- A packed word under a mask that keeps whole fields. -/
theorem packWord_and_mask (opc off wid len : Nat) (o w l : BitVec 8) :
    packWord opc off wid len &&& ((0xFF : BitVec 8) ++ o ++ w ++ l) =
      BitVec.ofNat 8 opc ++ (BitVec.ofNat 8 off &&& o) ++ (BitVec.ofNat 8 wid &&& w) ++ (BitVec.ofNat 8 len &&& l) := by
  unfold packWord
  rw [BitVec.and_append, BitVec.and_append, BitVec.and_append]
  rw [show (0xFF : BitVec 8) = BitVec.allOnes 8 from rfl, BitVec.and_allOnes]

theorem clear : Statement .clear := fun _ => by decide

theorem insert (off wid : Nat) : Statement (.insert off wid) := fun _ =>
  (packWord_and_mask 0x02 off wid 0 0 0 0xFF).trans (by simp [Instr.row])

theorem extract (off wid : Nat) : Statement (.extract off wid) := fun _ =>
  (packWord_and_mask 0x03 off wid 0 0 0 0xFF).trans (by simp [Instr.row])

theorem rdbytes : Statement .rdbytes := fun _ => by decide

theorem frombytes (len : Nat) : Statement (.frombytes len) := fun _ =>
  (packWord_and_mask 0x05 0 0 len 0xFF 0xFF 0).trans (by simp [Instr.row])

theorem randbits (wid : Nat) : Statement (.randbits wid) := fun _ =>
  (packWord_and_mask 0x10 0 wid 0 0xFF 0 0xFF).trans (by simp [Instr.row])

theorem new : Statement .new := fun _ => by decide

theorem getts : Statement .getts := fun _ => by decide

theorem getver : Statement .getver := fun _ => by decide

theorem getranda : Statement .getranda := fun _ => by decide

theorem getvar : Statement .getvar := fun _ => by decide

theorem getrandb : Statement .getrandb := fun _ => by decide

theorem format : Statement .format := fun _ => by decide

theorem parse (len : Nat) : Statement (.parse len) := fun _ =>
  (packWord_and_mask 0x21 0 0 len 0xFF 0xFF 0).trans (by simp [Instr.row])

end Sys2Proof.Laws.TableRow
end

