-- ==== Sys2Proof/Laws/Step.lean ====
section
/-! SUPPORT. What one step can do, said once: which agent moves, and the case split of every shared operation below it. -/

namespace Sys2Proof.Machine

/-- A step is an accept of the oldest presented word by a ready block, or a move of the outside. -/
theorem step_cases {s : State} {r : Result} (h : step s = r) :
    (∃ w rest, s.ready = true ∧ s.cmdPort = w :: rest ∧ r = accept w { s with cmdPort := rest }) ∨
      ((s.ready = false ∨ s.cmdPort = []) ∧ r = .next (outsideStep s)) := by
  subst h
  unfold step advance
  split
  · rename_i w rest h1 h2
    exact .inl ⟨w, rest, h1, h2, rfl⟩
  · rename_i h1
    refine .inr ⟨?_, rfl⟩
    cases hr : s.ready
    · exact .inl rfl
    · cases hc : s.cmdPort
      · exact .inr rfl
      · exact absurd hc (h1 _ _ hr)

@[simp] theorem run_zero (s : State) : run 0 s = .next s := rfl

/-- A run goes on from the state its first step answers. -/
theorem run_succ {k : Nat} {s t : State} (h : step s = .next t) : run (k + 1) s = run k t := by
  simp only [run, h]

/-- An accept runs the decoded command or raises `IllegalCommand`. -/
theorem accept_cases (w : CmdWord) (s : State) :
    (∃ i, decode w = .ok i ∧ accept w s = exec i s) ∨
      (∃ e, decode w = .error e ∧ accept w s = .next (raised .illegalCommand s)) := by
  unfold accept
  cases decode w with
  | ok i => exact .inl ⟨i, rfl, rfl⟩
  | error e => exact .inr ⟨e, rfl, rfl⟩

/-- A move of the outside is the oldest scheduled input, or the free answer of the entropy port. -/
theorem outsideStep_cases (s : State) :
    (∃ i rest, s.inputs = i :: rest ∧ outsideStep s = takeInput i { s with inputs := rest }) ∨
      (s.inputs = [] ∧ outsideStep s = answer (freeResponse s) s) := by
  unfold outsideStep
  cases s.inputs with
  | nil => exact .inr ⟨rfl, rfl⟩
  | cons i rest => exact .inl ⟨i, rest, rfl, rfl⟩

/-- A response of the entropy port, phase by phase (10_state.md R41, 41_ldid.md R106 and R110). -/
theorem answer_cases (r : EntropyResponse) (s : State) :
    (s.phase = .idle ∧ answer r s = s) ∨
    (s.phase ≠ .idle ∧ r = .err ∧ answer r s = { s with phase := .idle, err := 3 }) ∨
    (∃ v, r = .ok v ∧ s.phase = .randWait ∧
      answer r s = { s with phase := .idle, dout := reduceDraw v s.latW.toNat, err := 0 }) ∨
    (∃ v, r = .ok v ∧ s.phase = .newWaitA ∧
      answer r s = { s with latA := v.setWidth 12, phase := .newWaitB, requests := s.requests ++ [62] }) ∨
    (∃ v, r = .ok v ∧ s.phase = .newWaitB ∧
      answer r s = { s with phase := .idle, buf := pack s.latT s.latA (v.setWidth 62), err := 0 }) := by
  unfold answer
  cases hp : s.phase <;> cases r <;>
    simp [answerRandbits, answerNewA, answerNewB, raised, completed, sendRequest, ErrorKind.code]

/-! ### Latches -/

theorem sameWork_refl (s : State) : sameWork s s := by
  refine ⟨rfl, ?_⟩
  unfold sameLiveLatches
  cases s.phase <;> simp

/-- In an idle block every latch is free. -/
theorem sameWork_of_idle {s t : State} (hp : s.phase = .idle) (h : sameButLatches s t) : sameWork s t :=
  ⟨h, by simp [sameLiveLatches, hp]⟩

/-- No host read, nor BUF, PHASE or the requests, shows a latch (10_state.md R33, R35). -/
theorem sameButLatches_shows {s t : State} (h : sameButLatches s t) :
    sameToHost s t ∧ t.buf = s.buf ∧ t.phase = s.phase ∧ t.requests = s.requests := by
  rw [show t = _ from h]
  exact ⟨fun r => by cases r <;> rfl, rfl, rfl, rfl⟩

end Sys2Proof.Machine
end

