-- ==== Sys2Proof/Tests/Slice0.lean ====
section
/-! SUPPORT. Tests: each expected value is from 95_test_vectors.md (its table named in the comment) or worked out by hand
from the rule named; and for every statement with hypotheses a witness `test_witness_<its name>` that meets them. -/

namespace Sys2Proof.Tests

open Sys2Proof Sys2Proof.Machine

/-- A part of the next state, if the step gives one. -/
def look {α : Type} (f : State → α) : Result → Option α
  | .next s => some (f s)
  | .fault _ => none
  | .refused _ => none

/-- The `n` bytes of the number `w`, most significant first. -/
def bytesOf (n w : Nat) : List Byte := (List.range n).map (fun i => BitVec.ofNat 8 (w / 256 ^ (n - 1 - i)))

/-- A ready block with the given `BUF`, `DIN` and strictness. -/
def block (u : Buf) (v : Value) (strict : Bool) : State := { State.reset with buf := u, din := v, strict := strict }

/-- A ready block whose `INB` starts with the `n` bytes of `w`. -/
def withText (n w : Nat) : State :=
  { State.reset with buf := 0x55, inb := Memory.writeBytes [] 0 (bytesOf n w) }

/-- A ready block with the word `w` presented, the time port set to `t` and the given inputs to come. -/
def presented (w : CmdWord) (t : Value) (is : List Input) : State :=
  { State.reset with cmdPort := [w], timeScript := [t], inputs := is }

/-- A block that waits in phase `p`, its request of width `n` sent, with the given inputs to come. -/
def waiting (p : Phase) (n : BitVec 7) (is : List Input) : State :=
  { State.reset with phase := p, latW := n, latT := 0x0123456789AB, latA := 0xABC, requests := [n], inputs := is }

/-- The LDID of the example of 41_ldid.md R110. -/
def sample : Buf := 0x0123456789ab7abc8123456789abcdef

/-! ### Well-formedness: one ill-formed term per operand check (30_encoding.md R69) -/

theorem test_wellFormed_insert_off : (Instr.insert 256 8).wellFormed = false := by decide
theorem test_wellFormed_insert_wid : (Instr.insert 8 256).wellFormed = false := by decide
theorem test_wellFormed_extract_off : (Instr.extract 256 8).wellFormed = false := by decide
theorem test_wellFormed_extract_wid : (Instr.extract 8 256).wellFormed = false := by decide
theorem test_wellFormed_frombytes : (Instr.frombytes 256).wellFormed = false := by decide
theorem test_wellFormed_randbits : (Instr.randbits 256).wellFormed = false := by decide
theorem test_wellFormed_parse : (Instr.parse 256).wellFormed = false := by decide
theorem test_wellFormed_accepts : (Instr.insert 255 0).wellFormed = true ∧ (Instr.parse 255).wellFormed = true ∧
    Instr.wellFormed .clear = true := by decide

/-! ### Decoding: words written out from the fields of R61 and the map of R65 (95_test_vectors.md V-ENC) -/

theorem test_decode_clear : decode 0b00000001_00000000_00000000_00000000 = .ok .clear := by decide
theorem test_decode_insert : decode 0b00000010_00110100_00001100_00000000 = .ok (.insert 52 12) := by decide
theorem test_decode_extract : decode 0b00000011_01000010_00111110_00000000 = .ok (.extract 66 62) := by decide
theorem test_decode_rdbytes : decode 0b00000100_00000000_00000000_00000000 = .ok .rdbytes := by decide
theorem test_decode_frombytes : decode 0b00000101_00000000_00000000_00010000 = .ok (.frombytes 16) := by decide
theorem test_decode_randbits : decode 0b00010000_00000000_01000000_00000000 = .ok (.randbits 64) := by decide
theorem test_decode_new : decode 0b00010001_00000000_00000000_00000000 = .ok .new := by decide
theorem test_decode_getts : decode 0b00010010_00000000_00000000_00000000 = .ok .getts := by decide
theorem test_decode_getver : decode 0b00010011_00000000_00000000_00000000 = .ok .getver := by decide
theorem test_decode_getranda : decode 0b00010100_00000000_00000000_00000000 = .ok .getranda := by decide
theorem test_decode_getvar : decode 0b00010101_00000000_00000000_00000000 = .ok .getvar := by decide
theorem test_decode_getrandb : decode 0b00010110_00000000_00000000_00000000 = .ok .getrandb := by decide
theorem test_decode_format : decode 0b00100000_00000000_00000000_00000000 = .ok .format := by decide
theorem test_decode_parse : decode 0b00100001_00000000_00000000_00100100 = .ok (.parse 36) := by decide
theorem test_decodeTableWord : decodeTableWord 32 0x02340C00 = some (.insert 52 12) ∧
    decodeTableWord 32 0x02340C01 = none := by decide

/-! ### One step per command -/

/-- V-BYT: CLEAR of any `BUF`. -/
theorem test_clear : look (fun t => (t.buf, t.err, t.dout)) (exec .clear { block sample 0 true with dout := 9, err := 2 }) =
    some (0, 0, 9) := by decide

/-- V-INS: 0xA5 at 60, 8 crosses bytes 7 and 8; 0 at 62, 4 on all-ones clears only its run. -/
theorem test_insert : look (·.buf) (exec (.insert 60 8) (block 0 0xA5 true)) = some 0x000000000000000a5000000000000000 ∧
    look (·.buf) (exec (.insert 62 4) (block (BitVec.allOnes 128) 0 true)) = some 0xfffffffffffffffc3fffffffffffffff := by
  decide

/-- V-INS: 0x3F at 3, 5 in both modes, width before bounds, bounds before value. -/
theorem test_insert_errors :
    look (fun t => (t.buf, t.err)) (exec (.insert 3 5) (block 0 0x3F false)) =
      some (0x1f000000000000000000000000000000, 0) ∧
    look (fun t => (t.buf, t.err)) (exec (.insert 3 5) (block 0 0x3F true)) = some (0, 2) ∧
    look (·.err) (exec (.insert 200 0) (block 0 0x1FF true)) = some 1 ∧
    look (·.err) (exec (.insert 127 8) (block 0 0x1FF true)) = some 2 ∧
    look (·.err) (exec (.insert 65 64) (block 0 1 true)) = some 2 := by decide

/-- P3 line 4 (60, 8 of the parsed LDID), and R84's corners on `sample`: the two halves. -/
theorem test_extract : look (·.dout) (exec (.extract 60 8) (block 0x018bcfe568007123bfffffffffffffff 0 true)) = some 0x3B ∧
    look (·.dout) (exec (.extract 0 64) (block sample 0 true)) = some 0x0123456789ab7abc ∧
    look (·.dout) (exec (.extract 64 64) (block sample 0 true)) = some 0x8123456789abcdef := by decide

/-- P3 lines 7 and 8: `DOUT` stays. -/
theorem test_extract_errors :
    look (fun t => (t.dout, t.err)) (exec (.extract 0 0) { block sample 0 true with dout := 0x3B }) = some (0x3B, 1) ∧
    look (fun t => (t.dout, t.err)) (exec (.extract 100 29) { block sample 0 true with dout := 0x3B }) = some (0x3B, 2) ∧
    look (·.err) (exec (.extract 0 65) (block sample 0 true)) = some 1 := by decide

/-- V-BYT: `OUTB[16..36)` keeps its bytes. -/
theorem test_rdbytes : look (fun t => (t.outb.readBytes 0 17, t.outlen))
    (exec .rdbytes { block 0x0102030405060708090a0b0c0d0e0f10 0 true with outb := [(3, 9), (16, 0xEE)] }) =
      some (bytesOf 17 0x0102030405060708090a0b0c0d0e0f10EE, 16) := by decide

/-- V-BYT: length 16 loads, 15 and 17 fail. -/
theorem test_frombytes : look (fun t => (t.buf, t.err)) (exec (.frombytes 16) (withText 16 0x0102030405060708090a0b0c0d0e0f10)) =
      some (0x0102030405060708090a0b0c0d0e0f10, 0) ∧
    look (fun t => (t.buf, t.err)) (exec (.frombytes 15) (withText 16 0x0102030405060708090a0b0c0d0e0f10)) = some (0x55, 4) ∧
    look (·.err) (exec (.frombytes 17) (withText 17 0)) = some 4 := by decide

/-- S4: the responses 0xDEADBEEFCAFEF00D to widths 12 and 64. -/
theorem test_randbits_response :
    look (fun t => (t.dout, t.err, t.phase)) (step (waiting .randWait 12 [.entropy (.ok 0xDEADBEEFCAFEF00D)])) =
      some (0x00D, 0, .idle) ∧
    look (·.dout) (step (waiting .randWait 64 [.entropy (.ok 0xDEADBEEFCAFEF00D)])) = some 0xDEADBEEFCAFEF00D := by decide

/-- S4: widths 0 and 65 fail at accept and send nothing; 64 sends one request. -/
theorem test_randbits_accept :
    look (fun t => (t.err, t.requests, t.phase)) (exec (.randbits 0) State.reset) = some (1, [], .idle) ∧
    look (fun t => (t.err, t.requests, t.phase)) (exec (.randbits 65) State.reset) = some (1, [], .idle) ∧
    look (fun t => (t.status, t.requests)) (exec (.randbits 64) State.reset) = some (0xC0, [64]) := by decide

/-- V-NEW, first row: the last response packs the latches. -/
theorem test_new_response :
    look (fun t => (t.buf, t.err)) (step (waiting .newWaitB 62 [.entropy (.ok 0x0123456789ABCDEF)])) = some (sample, 0) := by
  decide

/-- R110, S6: at accept the time is truncated to 48 bits and the 12-bit request goes out; `BUF` is not yet written. -/
theorem test_new_accept :
    look (fun t => (t.latT, t.requests, t.timeReads, t.buf)) (exec .new { presented 0 (BitVec.allOnes 64) [] with cmdPort := [] }) =
      some (0xFFFFFFFFFFFF, [12], 1, 0) := by decide

/-- The examples of R115 to R119. -/
theorem test_getts : look (·.dout) (exec .getts (block sample 0 true)) = some 0x0123456789AB := by decide
theorem test_getver : look (·.dout) (exec .getver (block sample 0 true)) = some 7 := by decide
theorem test_getranda : look (·.dout) (exec .getranda (block sample 0 true)) = some 0xABC := by decide
theorem test_getvar : look (·.dout) (exec .getvar (block sample 0 true)) = some 2 := by decide
theorem test_getrandb : look (·.dout) (exec .getrandb (block sample 0 true)) = some 0x0123456789ABCDEF := by decide

/-- V-FMT, last row: `01234567-89ab-7abc-8123-456789abcdef`. -/
theorem test_format : look (fun t => (t.outb.readBytes 0 36, t.outlen)) (exec .format (block sample 0 true)) =
    some (bytesOf 36 0x30313233343536372D383961622D376162632D383132332D343536373839616263646566, 36) := by decide

/-- V-PAR: uppercase, and a hyphen anywhere. -/
theorem test_parse :
    look (fun t => (t.buf, t.err)) (exec (.parse 36) (withText 36 0x30313233343536372D383941422D374142432D383132332D343536373839414243444546)) = some (sample, 0) ∧
    look (fun t => (t.buf, t.err)) (exec (.parse 33) (withText 33 0x303132332D34353637383961623761626338313233343536373839616263646566)) = some (sample, 0) := by decide

/-- V-PAR: `g`, spaces, and a length that cuts the last digit. -/
theorem test_parse_errors :
    look (fun t => (t.buf, t.err)) (exec (.parse 36) (withText 36 0x30313233343536372D383961622D376162632D383132332D343536373839616263646567)) = some (0x55, 4) ∧
    look (·.err) (exec (.parse 36) (withText 36 0x303132333435363720383961622037616263203831323320343536373839616263646566)) = some 4 ∧
    look (·.err) (exec (.parse 35) (withText 36 0x30313233343536372D383961622D376162632D383132332D343536373839616263646566)) = some 4 := by decide

/-! ### Fetching, waiting and reset -/

/-- The word placed is the one the next step accepts: P1 line 5 from 7 in `DIN`. -/
theorem test_withFetchWord :
    look (·.buf) (step ((block 0 7 true).withFetchWord 32 0x02300400)) = some 0x00000000000070000000000000000000 := by decide

/-- P5 lines 7 and 8. -/
theorem test_illegal_words : look (·.err) (step (State.reset.withFetchWord 32 0)) = some 7 ∧
    look (fun t => (t.buf, t.err)) (step ((block sample 0 true).withFetchWord 32 0x01000001)) = some (sample, 7) := by decide

/-- S5, first row: an `Err` to the 12-bit draw ends the command with code 3 and no second request. -/
theorem test_new_first_err :
    look (fun t => (t.buf, t.err, t.requests, t.phase)) (step { waiting .newWaitA 12 [.entropy .err] with buf := 0xB0 }) =
      some (0xB0, 3, [12], .idle) := by decide

/-- R171: a presented word waits while reset is asserted. -/
theorem test_reset_holds_words :
    look (fun t => (t.cmdPort, t.err)) (step { presented 0 0 [] with inReset := true }) = some ([0], 0) := by decide

/-! ### Witnesses: the hypotheses of each statement can be met -/

theorem test_witness_DecodeOfEncode : (Instr.insert 255 255).wellFormed = true ∧ (Instr.randbits 0).wellFormed = true := by
  decide

theorem test_witness_EncodeOfDecode : decode 0x0300FF00 = .ok (.extract 0 255) := by decide

theorem test_witness_DecodingFollowsTheOpcodeMap : decode 0x210000FF = .ok (.parse 255) ∧
    Instr.row (.parse 0) ∈ opcodeMap ∧ (0x210000FF : CmdWord) &&& (Instr.row (.parse 0)).mask = (Instr.row (.parse 0)).bits := by
  decide

theorem test_witness_StepRunsTheDecodedCommand :
    (presented 0x01000000 0 []).ready = true ∧ (presented 0x01000000 0 []).cmdPort = 0x01000000 :: [] ∧
    decode 0x01000000 = .ok .clear := by decide

/-- A ready block holds `w`, and `w` meets the premise of the statement about illegal words. -/
abbrev MeetsIllegal (w : CmdWord) : Prop :=
  (presented w 0 []).ready = true ∧
  (let opc := w.toNat / 2 ^ 24
   let off := w.toNat / 2 ^ 16 % 256
   let wid := w.toNat / 2 ^ 8 % 256
   let len := w.toNat % 256
   (opc = 0 ∨ (0x06 ≤ opc ∧ opc ≤ 0x0F) ∨ (0x17 ≤ opc ∧ opc ≤ 0x1F) ∨ 0x22 ≤ opc) ∨
   (opc ∈ [0x01, 0x04, 0x11, 0x12, 0x13, 0x14, 0x15, 0x16, 0x20] ∧ (off ≠ 0 ∨ wid ≠ 0 ∨ len ≠ 0)) ∨
   (opc ∈ [0x02, 0x03] ∧ len ≠ 0) ∨ (opc ∈ [0x05, 0x21] ∧ (off ≠ 0 ∨ wid ≠ 0)) ∨
   (opc = 0x10 ∧ (off ≠ 0 ∨ len ≠ 0)))

/-- The ranges of unassigned opcodes, at both ends of each. -/
theorem test_witness_IllegalWordsOnlyRaiseIllegalCommand : MeetsIllegal 0x00000000 ∧ MeetsIllegal 0x06000000 ∧
    MeetsIllegal 0x0F000000 ∧ MeetsIllegal 0x17000000 ∧ MeetsIllegal 0x1FFFFFFF ∧ MeetsIllegal 0x22000000 ∧
    MeetsIllegal 0xFF000000 :=
  ⟨by decide, by decide, by decide, by decide, by decide, by decide, by decide⟩

/-- The four clauses about fields marked 0. -/
theorem test_witness_IllegalWords_fields : MeetsIllegal 0x01010000 ∧ MeetsIllegal 0x16000100 ∧
    MeetsIllegal 0x20000001 ∧ MeetsIllegal 0x02000001 ∧ MeetsIllegal 0x030000FF ∧ MeetsIllegal 0x05010000 ∧
    MeetsIllegal 0x21000100 ∧ MeetsIllegal 0x10010000 ∧ MeetsIllegal 0x10000001 :=
  ⟨by decide, by decide, by decide, by decide, by decide, by decide, by decide, by decide, by decide⟩

theorem test_witness_ClearZeroesTheBuffer : (block sample 0 true).ready = true ∧
    (0x01000000 : CmdWord).toNat / 2 ^ 24 = 0x01 ∧ (0x01000001 : CmdWord).toNat / 2 ^ 24 = 0x01 := by decide

/-- Each branch at its boundary: widths 0 and 65, the run ending at 129, the over-wide value, width 64 at offset 64. -/
theorem test_witness_InsertWritesItsRun : (block 0 0xFF true).ready = true ∧
    (0x02404000 : CmdWord).toNat / 2 ^ 24 = 0x02 ∧ (0x02404001 : CmdWord).toNat / 2 ^ 24 = 0x02 ∧
    look (·.err) (exec (.insert 0 0) (block 0 0xFF true)) = some 1 ∧
    look (·.err) (exec (.insert 0 65) (block 0 0xFF true)) = some 1 ∧
    look (·.err) (exec (.insert 128 1) (block 0 1 true)) = some 2 ∧
    look (·.err) (exec (.insert 0 7) (block 0 0xFF true)) = some 2 ∧
    look (·.buf) (exec (.insert 64 64) (block 0 0xFF true)) = some 0xFF := by decide

theorem test_witness_InsertChangesOnlyItsRun : (block sample 1 true).ready = true ∧ 1 ≤ 1 ∧ 1 ≤ 64 ∧ 127 + 1 ≤ 128 ∧
    ((block sample 1 true).strict = true → (block sample 1 true).din.toNat < 2 ^ 1) := by decide

theorem test_witness_DisjointInsertsCommute : (block sample 0 true).ready = true ∧ (0 + 48 ≤ 48 ∨ 48 + 4 ≤ 0) ∧
    (∃ a b c d : State,
      exec (.insert 0 48) { block sample 0 true with din := 5 } = .next a ∧ a.err = 0 ∧
      exec (.insert 48 4) { a with din := 7 } = .next b ∧ b.err = 0 ∧
      exec (.insert 48 4) { block sample 0 true with din := 7 } = .next c ∧ c.err = 0 ∧
      exec (.insert 0 48) { c with din := 5 } = .next d ∧ d.err = 0) := by
  exact ⟨rfl, by decide, _, _, _, _, rfl, rfl, rfl, rfl, rfl, rfl, rfl, rfl⟩

theorem test_witness_ExtractAfterInsertGivesTheValue : ∃ t t' : State, (block 0 7 true).ready = true ∧
    exec (.insert 48 4) (block 0 7 true) = .next t ∧ t.err = 0 ∧ t'.ready = true ∧ t'.buf = t.buf ∧
    (block 0 7 true).strict = true :=
  ⟨_, block 0x00000000000070000000000000000000 0 true, rfl, rfl, rfl, rfl, by decide, rfl⟩

theorem test_witness_ExtractReadsItsRun : (block sample 0 true).ready = true ∧
    (0x03404000 : CmdWord).toNat / 2 ^ 24 = 0x03 ∧ (0x03404001 : CmdWord).toNat / 2 ^ 24 = 0x03 ∧
    look (·.err) (exec (.extract 128 1) (block sample 0 true)) = some 2 ∧
    look (·.dout) (exec (.extract 127 1) (block sample 0 true)) = some 1 := by decide

theorem test_witness_ExtractIsBigEndianAtAnyOffset :
    (block sample 0 true).ready = true ∧ 1 ≤ 64 ∧ 64 ≤ 64 ∧ 61 + 64 ≤ 128 := by decide

theorem test_witness_RdbytesCopiesTheBytes : (block sample 0 true).ready = true ∧
    (0x04000000 : CmdWord).toNat / 2 ^ 24 = 0x04 ∧ (0x04000100 : CmdWord).toNat / 2 ^ 24 = 0x04 := by decide

theorem test_witness_FrombytesLoadsTheBytes : (withText 16 1).ready = true ∧ 15 ≠ 16 ∧ 17 ≠ 16 ∧
    (0x05000010 : CmdWord).toNat / 2 ^ 24 = 0x05 ∧ (0x05010010 : CmdWord).toNat / 2 ^ 24 = 0x05 := by decide

theorem test_witness_BytesRoundTrip :
    (∃ t t' u : State, (withText 16 1).ready = true ∧ exec (.frombytes 16) (withText 16 1) = .next t ∧ t'.ready = true ∧
      t'.buf = t.buf ∧ exec .rdbytes t' = .next u) ∧
    (∃ t t' : State, (block 1 0 true).ready = true ∧ exec .rdbytes (block 1 0 true) = .next t ∧ t'.ready = true ∧
      t'.buf = t.buf ∧ ∀ i, i < 16 → t'.inb.read i = t.outb.read i) :=
  ⟨⟨_, block 1 0 true, _, rfl, rfl, rfl, by decide, rfl⟩,
    ⟨_, { block 1 0 true with inb := [(15, 1)] }, rfl, rfl, rfl, rfl, by decide⟩⟩

theorem test_witness_RandbitsDrawsItsWidth : State.reset.ready = true ∧
    (0x10004000 : CmdWord).toNat / 2 ^ 24 = 0x10 ∧ (0x10014000 : CmdWord).toNat / 2 ^ 24 = 0x10 ∧
    (waiting .randWait 64 [.entropy .err]).phase = .randWait ∧
    (waiting .randWait 64 [.entropy .err]).inputs = .entropy .err :: [] ∧
    (waiting .randWait 1 [.entropy (.ok 3)]).inputs = .entropy (.ok 3) :: [] := by decide

theorem test_witness_DrawLaw : ∀ n ∈ [0, 1, 64, 65, 255],
    (presented (BitVec.ofNat 32 (0x10000000 + n * 2 ^ 8)) 0 [.entropy (.ok 5)]).ready = true ∧ n < 256 ∧
    (presented (BitVec.ofNat 32 (0x10000000 + n * 2 ^ 8)) 0 [.entropy (.ok 5)]).cmdPort =
      BitVec.ofNat 32 (0x10000000 + n * 2 ^ 8) :: [] ∧
    (presented (BitVec.ofNat 32 (0x10000000 + n * 2 ^ 8)) 0 [.entropy (.ok 5)]).inputs = .entropy (.ok 5) :: [] ∧
    ((1 ≤ n ∧ n ≤ 64) ∨ n = 0 ∨ 65 ≤ n) := by decide

theorem test_witness_NewPacksTimeAndDraws : (presented 0 8 []).ready = true ∧ (presented 0 8 []).timeScript = 8 :: [] ∧
    (0x11000000 : CmdWord).toNat / 2 ^ 24 = 0x11 ∧ (0x11000001 : CmdWord).toNat / 2 ^ 24 = 0x11 ∧
    (waiting .newWaitA 12 [.entropy .err]).phase = .newWaitA ∧
    (waiting .newWaitA 12 [.entropy .err]).inputs = .entropy .err :: [] ∧
    (waiting .newWaitA 12 [.entropy (.ok 1)]).inputs = .entropy (.ok 1) :: [] ∧
    (waiting .newWaitB 62 [.entropy .err]).phase = .newWaitB ∧
    (waiting .newWaitB 62 [.entropy .err]).inputs = .entropy .err :: [] ∧
    (waiting .newWaitB 62 [.entropy (.ok 1)]).inputs = .entropy (.ok 1) :: [] := by decide

/-- A NEW with its time and its two draws set (V-NEW, first row). -/
def newRun : State := presented 0x11000000 0x0123456789AB [.entropy (.ok 0xABC), .entropy (.ok 0x0123456789ABCDEF)]

theorem test_witness_AccessorsAfterNew : newRun.ready = true ∧ newRun.cmdPort = 0x11000000 :: [] ∧
    newRun.timeScript = 0x0123456789AB :: [] ∧
    newRun.inputs = .entropy (.ok 0xABC) :: .entropy (.ok 0x0123456789ABCDEF) :: [] ∧
    look (·.buf) (run 3 newRun) = some sample ∧ (block sample 0 true).ready = true := by decide

theorem test_witness_FailedNewLeavesNoTrace :
    (presented 0x11000000 0 [.entropy .err]).ready = true ∧ (presented 0x11000000 0 [.entropy .err]).cmdPort = 0x11000000 :: [] ∧
    (presented 0x11000000 0 [.entropy .err]).inputs = .entropy .err :: [] ∧
    (presented 0x11000000 0 [.entropy (.ok 1), .entropy .err]).ready = true ∧
    (presented 0x11000000 0 [.entropy (.ok 1), .entropy .err]).cmdPort = 0x11000000 :: [] ∧
    (presented 0x11000000 0 [.entropy (.ok 1), .entropy .err]).inputs = .entropy (.ok 1) :: .entropy .err :: [] := by decide

/-- A tagged buffer with the given words presented and inputs to come. -/
def taggedBlock (words : List CmdWord) (is : List Input) : State :=
  { block sample 0 true with cmdPort := words, inputs := is }

/-- First part: a FORMAT accepted while a reset is only scheduled, and a release with no reset asserted. Second part: the
last response to a NEW. -/
theorem test_witness_TagsSurviveEveryOtherStep :
    (∃ t, tagged (taggedBlock [0x20000000] [.resetLine true]).buf ∧
      step (taggedBlock [0x20000000] [.resetLine true]) = .next t ∧ decode 0x20000000 = .ok .format ∧
      overwritesBuf .format = false ∧ (taggedBlock [0x20000000] [.resetLine true]).cmdPort = 0x20000000 :: [] ∧
      ¬((taggedBlock [0x20000000] [.resetLine true]).ready = false ∨
        (taggedBlock [0x20000000] [.resetLine true]).cmdPort = [])) ∧
    (∃ t, tagged (taggedBlock [] [.resetLine false]).buf ∧ step (taggedBlock [] [.resetLine false]) = .next t ∧
      (taggedBlock [] [.resetLine false]).cmdPort = [] ∧
      ∀ b, (taggedBlock [] [.resetLine false]).inputs.head? = some (.resetLine b) →
        b = false ∧ (taggedBlock [] [.resetLine false]).inReset = false) ∧
    (∃ t, (waiting .newWaitB 62 [.entropy (.ok 1)]).phase = .newWaitB ∧
      (waiting .newWaitB 62 [.entropy (.ok 1)]).inputs = .entropy (.ok 1) :: [] ∧
      step (waiting .newWaitB 62 [.entropy (.ok 1)]) = .next t ∧ t.err = 0 ∧ EntropyResponse.ok 1 ≠ .err) :=
  ⟨⟨_, by unfold tagged; decide, rfl, by decide, rfl, rfl, by decide⟩, ⟨_, by unfold tagged; decide, rfl, rfl, by decide⟩,
    ⟨_, rfl, rfl, rfl, rfl, by decide⟩⟩

theorem test_witness_NewIgnoresOldBufferAndStrictness :
    (∃ t, (presented 0 8 []).ready = true ∧ exec .new (presented 0 8 []) = .next t) ∧
    (∃ t, (waiting .newWaitA 12 [.entropy (.ok 1), .entropy (.ok 2)]).phase = .newWaitA ∧
      (waiting .newWaitA 12 [.entropy (.ok 1), .entropy (.ok 2)]).inputs = .entropy (.ok 1) :: .entropy (.ok 2) :: [] ∧
      run 2 (waiting .newWaitA 12 [.entropy (.ok 1), .entropy (.ok 2)]) = .next t) :=
  ⟨⟨_, rfl, rfl⟩, ⟨_, rfl, rfl, rfl⟩⟩

theorem test_witness_AccessorsReadTheirFields : (block sample 0 true).ready = true ∧
    (0x12000000 : CmdWord).toNat / 2 ^ 24 = 0x12 ∧ (0x12000001 : CmdWord).toNat / 2 ^ 24 = 0x12 ∧
    (0x13000000 : CmdWord).toNat / 2 ^ 24 = 0x13 ∧ (0x13000001 : CmdWord).toNat / 2 ^ 24 = 0x13 ∧
    (0x14000000 : CmdWord).toNat / 2 ^ 24 = 0x14 ∧ (0x14000001 : CmdWord).toNat / 2 ^ 24 = 0x14 ∧
    (0x15000000 : CmdWord).toNat / 2 ^ 24 = 0x15 ∧ (0x15000001 : CmdWord).toNat / 2 ^ 24 = 0x15 ∧
    (0x16000000 : CmdWord).toNat / 2 ^ 24 = 0x16 ∧ (0x16000001 : CmdWord).toNat / 2 ^ 24 = 0x16 := by decide

/-- The ends of each row of the character table, and the bytes just outside them. -/
theorem test_witness_HexDigitTable : hexLower 0 = 0x30 ∧ hexLower 9 = 0x39 ∧ hexLower 10 = 0x61 ∧ hexLower 15 = 0x66 ∧
    hexVal 0x39 = 9 ∧ hexVal 0x61 = 10 ∧ hexVal 0x66 = 15 ∧ hexVal 0x41 = 10 ∧ hexVal 0x46 = 15 ∧
    isHex 0x2F = false ∧ isHex 0x3A = false ∧ isHex 0x40 = false ∧ isHex 0x47 = false ∧ isHex 0x60 = false ∧
    isHex 0x67 = false := by decide

theorem test_witness_FormatWritesTheCanonicalText : (block sample 0 true).ready = true ∧
    (0x20000000 : CmdWord).toNat / 2 ^ 24 = 0x20 ∧ (0x20000001 : CmdWord).toNat / 2 ^ 24 = 0x20 ∧
    charIndex 0 = 0 ∧ charIndex 4 = 9 ∧ charIndex 10 = 24 ∧ charIndex 15 = 34 := by decide

theorem test_witness_FormatMatchesThePattern : (block sample 0 true).ready = true := by decide

theorem test_witness_TextOfAnLdidShowsItsTags : (block sample 0 true).ready = true ∧ tagged (block sample 0 true).buf := by
  unfold tagged
  decide

/-- A text of 32 digits, one that is too short, and one with a wrong byte. -/
theorem test_witness_ParseDecodesTheDigits : (withText 36 0x30313233343536372D383961622D376162632D383132332D343536373839616263646566).ready = true ∧
    (0x21000024 : CmdWord).toNat / 2 ^ 24 = 0x21 ∧ (0x21010024 : CmdWord).toNat / 2 ^ 24 = 0x21 ∧
    (let d := ((List.range 36).map (withText 36 0x30313233343536372D383961622D376162632D383132332D343536373839616263646566).inb.read).filter (fun c => decide (c ≠ 0x2D))
     d.length = 32 ∧ ∀ c ∈ d, isHex c = true) ∧
    (((List.range 0).map (withText 36 0x30313233343536372D383961622D376162632D383132332D343536373839616263646566).inb.read).filter (fun c => decide (c ≠ 0x2D))).length ≠ 32 ∧
    (∃ c ∈ ((List.range 36).map (withText 36 0x30313233343536372D383961622D376162632D383132332D343536373839616263646567).inb.read).filter (fun c => decide (c ≠ 0x2D)), isHex c = false) := by decide

theorem test_witness_TextRoundTrip :
    (∃ t t' : State, (block sample 0 true).ready = true ∧ exec .format (block sample 0 true) = .next t ∧ t'.ready = true ∧
      ∀ k, k < 36 → t'.inb.read k = t.outb.read k) ∧
    (∃ t t' u : State, (withText 36 0x30313233343536372D383941422D374142432D383132332D343536373839414243444546).ready = true ∧ exec (.parse 36) (withText 36 0x30313233343536372D383941422D374142432D383132332D343536373839414243444546) = .next t ∧ t.err = 0 ∧
      t'.ready = true ∧ t'.buf = t.buf ∧ exec .format t' = .next u) :=
  ⟨⟨_, withText 36 0x30313233343536372D383961622D376162632D383132332D343536373839616263646566, rfl, rfl, rfl, by decide⟩,
    ⟨_, block sample 0 true, _, rfl, rfl, by decide, rfl, by decide, rfl⟩⟩

theorem test_witness_ErrorsWriteOnlyErr :
    (∃ t, State.reset.ready = true ∧ exec (.insert 0 0) State.reset = .next t ∧ t.phase = .idle ∧ t.err ≠ 0) ∧
    (∃ t, (waiting .newWaitB 62 [.entropy .err]).phase ≠ .idle ∧
      (waiting .newWaitB 62 [.entropy .err]).inputs = .entropy .err :: [] ∧
      step (waiting .newWaitB 62 [.entropy .err]) = .next t ∧ t.phase = .idle ∧ t.err ≠ 0) :=
  ⟨⟨_, rfl, rfl, rfl, by decide⟩, ⟨_, by decide, rfl, rfl, rfl, by decide⟩⟩

theorem test_witness_ErrorsOfEachCommand :
    (∃ t, State.reset.ready = true ∧ exec (.randbits 0) State.reset = .next t ∧ t.phase = .idle) ∧
    (∃ t, exec (.extract 128 1) State.reset = .next t ∧ t.phase = .idle ∧ t.err = 2) ∧
    (∃ t, exec (.parse 0) State.reset = .next t ∧ t.phase = .idle ∧ t.err = 4) ∧
    (∃ t, exec .clear State.reset = .next t ∧ t.phase = .idle ∧ t.err = 0) :=
  ⟨⟨_, rfl, rfl, rfl⟩, ⟨_, rfl, rfl, by decide⟩, ⟨_, rfl, rfl, by decide⟩, ⟨_, rfl, rfl, rfl⟩⟩

theorem test_witness_StrictNeverChanges : ∃ t, step (waiting .randWait 1 [.resetLine true]) = .next t := ⟨_, rfl⟩

theorem test_witness_OnlyWaitingCommandsSetBusy : (State.reset.ready = true ∧ waits (.insert 0 1) = false) ∧
    (∃ t, (presented 0x10004000 0 []).status.getLsbD 7 = false ∧ step (presented 0x10004000 0 []) = .next t ∧
      t.status.getLsbD 7 = true) :=
  ⟨by decide, ⟨_, rfl, rfl, by decide⟩⟩

theorem test_witness_CommandsLeaveDinAndInb :
    (∃ t, (withText 36 0x30313233343536372D383961622D376162632D383132332D343536373839616263646566).ready = true ∧ exec (.parse 36) (withText 36 0x30313233343536372D383961622D376162632D383132332D343536373839616263646566) = .next t) ∧
    (∃ t, (waiting .randWait 1 [.entropy (.ok 1)]).ready = false ∧
      (waiting .randWait 1 [.entropy (.ok 1)]).inputs = .entropy (.ok 1) :: [] ∧
      step (waiting .randWait 1 [.entropy (.ok 1)]) = .next t) :=
  ⟨⟨_, rfl, rfl⟩, ⟨_, rfl, rfl, rfl⟩⟩

theorem test_witness_WaitingStepsWriteNoResult :
    (∃ t, step (presented 0x11000000 0 []) = .next t ∧ t.phase ≠ .idle) ∧
    (∃ t, step (waiting .newWaitA 12 [.entropy (.ok 1)]) = .next t ∧ t.phase ≠ .idle) :=
  ⟨⟨_, rfl, by decide⟩, ⟨_, rfl, by decide⟩⟩

theorem test_witness_ReadsHaveNoSideEffect :
    (∃ t t', (block sample 0 true).ready = true ∧ (block sample 5 false).ready = true ∧ overwritesBuf .rdbytes = false ∧
      waits .rdbytes = false ∧ exec .rdbytes (block sample 0 true) = .next t ∧
      (block sample 5 false).buf = (block sample 0 true).buf ∧ exec .rdbytes (block sample 5 false) = .next t') ∧
    (∃ t t', overwritesBuf (.extract 0 64) = false ∧ waits (.extract 0 64) = false ∧
      exec (.extract 0 64) (block sample 0 true) = .next t ∧ exec (.extract 0 64) (block sample 5 false) = .next t') :=
  ⟨⟨_, _, rfl, rfl, rfl, rfl, rfl, rfl, rfl⟩, ⟨_, _, rfl, rfl, rfl, rfl⟩⟩

/-- First part: every latch of an idle block, and in each waiting phase the latches it does not read. Second part: every latch
of a waiting block before an `Err` and before a reset. -/
theorem test_witness_LatchesNeverShow :
    sameWork (presented 0x10000500 0 [.entropy (.ok 9)])
      { presented 0x10000500 0 [.entropy (.ok 9)] with latW := 1, latT := 2, latA := 3 } ∧
    sameWork (waiting .randWait 5 []) { waiting .randWait 5 [] with latT := 2, latA := 3 } ∧
    sameWork (waiting .newWaitA 12 []) { waiting .newWaitA 12 [] with latW := 1, latA := 3 } ∧
    sameWork (waiting .newWaitB 62 []) { waiting .newWaitB 62 [] with latW := 1 } ∧
    (∀ i ∈ [Input.entropy .err, .resetLine true], (waiting .newWaitB 62 [i]).phase ≠ .idle ∧
      sameButLatches (waiting .newWaitB 62 [i]) { waiting .newWaitB 62 [i] with latW := 1, latT := 2, latA := 3 } ∧
      (waiting .newWaitB 62 [i]).inputs = i :: [] ∧ (i = .entropy .err ∨ i = .resetLine true)) := by
  refine ⟨⟨rfl, trivial⟩, ⟨rfl, rfl⟩, ⟨rfl, rfl⟩, ⟨rfl, rfl, rfl⟩, fun i hi => ⟨nofun, rfl, rfl, ?_⟩⟩
  simpa using hi

/-- R35: what an earlier command left in `LAT_W` does not reach a RANDBITS 5 answered with 0x3F, which gives 0x1F. -/
theorem test_stale_latch : look (·.dout) (run 2 { presented 0x10000500 0 [.entropy (.ok 0x3F)] with latW := 64 }) =
    some 0x1F := by decide

theorem test_witness_WaitingBlockHoldsPresentedWords :
    (∃ t, (waiting .randWait 1 [.present 7]).phase ≠ .idle ∧ step (waiting .randWait 1 [.present 7]) = .next t ∧
      (waiting .randWait 1 [.present 7]).inputs = .present 7 :: []) ∧
    ((presented 7 0 []).ready = true ∧ (presented 7 0 []).cmdPort = 7 :: []) :=
  ⟨⟨_, by decide, rfl, rfl⟩, by decide⟩

/-- Both ways of the premise, and both ends of `INB`. -/
theorem test_witness_HostWritesOnlyTheirRegister :
    ((waiting .randWait 1 [.writeDin 3]).ready = false ∧ (waiting .randWait 1 [.writeDin 3]).inputs = .writeDin 3 :: []) ∧
    (({ State.reset with inputs := [.writeInb 0 1] } : State).cmdPort = [] ∧
      ({ State.reset with inputs := [.writeInb 0 1] } : State).inputs = .writeInb 0 1 :: []) ∧
    look (fun t => t.inb) (step { State.reset with inputs := [.writeInb 255 1] }) = some [(255, 1)] := by decide

theorem test_witness_HostWritesDoNotTouchAWaitingCommand : (waiting .newWaitA 12 []).phase ≠ .idle := by decide

theorem test_witness_ResponseWithoutRequestIsDiscarded :
    (let s : State := { State.reset with inputs := [.entropy .err] }
     s.phase = .idle ∧ s.cmdPort = [] ∧ s.inputs = .entropy .err :: []) ∧
    (let s : State := { presented 7 0 [.entropy (.ok 1)] with inReset := true }
     s.phase = .idle ∧ s.inReset = true ∧ s.inputs = .entropy (.ok 1) :: []) := by decide

theorem test_witness_EveryRequestIsAnswered :
    ∀ p ∈ [Phase.randWait, .newWaitA, .newWaitB], (waiting p 12 []).phase ≠ .idle ∧ (waiting p 12 []).inputs = [] := by decide

theorem test_witness_NothingHappensWithoutACommand :
    State.reset.ready = true ∧ State.reset.cmdPort = [] ∧ State.reset.inputs = [] := by decide

/-- The premise in each of its three ways. -/
theorem test_witness_ResetInputRestoresEverything :
    ((waiting .newWaitB 62 [.resetLine true, .resetLine false]).phase ≠ .idle ∧
      (waiting .newWaitB 62 [.resetLine true, .resetLine false]).inputs = .resetLine true :: .resetLine false :: []) ∧
    (let s : State := { presented 7 0 [.resetLine true, .resetLine false] with inReset := true }
     s.inReset = true ∧ s.inputs = .resetLine true :: .resetLine false :: []) ∧
    (let s : State := { block sample 5 true with inputs := [.resetLine true, .resetLine false] }
     s.cmdPort = [] ∧ s.inputs = .resetLine true :: .resetLine false :: []) := by decide

theorem test_witness_NothingIsAcceptedUnderReset :
    let s : State := { presented 7 0 [.resetLine false] with inReset := true }
    ∃ t, s.inReset = true ∧ s.phase = .idle ∧ step s = .next t ∧ s.inputs = .resetLine false :: [] :=
  ⟨_, rfl, rfl, rfl, rfl⟩

theorem test_witness_EveryStepKeepsTheInvariant :
    (∃ t, (waiting .newWaitA 12 [.entropy (.ok 1)]).Inv ∧ step (waiting .newWaitA 12 [.entropy (.ok 1)]) = .next t) ∧
    (∃ t, (waiting .randWait 64 [.writeInb 255 1]).Inv ∧ step (waiting .randWait 64 [.writeInb 255 1]) = .next t) :=
  ⟨⟨_, by unfold State.Inv; decide, rfl⟩, ⟨_, by unfold State.Inv; decide, rfl⟩⟩

end Sys2Proof.Tests
end

section
/-! `STATUS.BUSY` and `PHASE` (10_state.md R31): which commands leave `PHASE` as it is, and that only the accept of a
waiting command takes an idle block out of `IDLE`. -/

namespace Sys2Proof.Machine

/-- Bit 7 of `STATUS` is BUSY (R29). -/
theorem status_getLsbD_seven (s : State) : s.status.getLsbD 7 = s.busy := by
  rw [State.status, BitVec.getLsbD_append, BitVec.getLsbD_append, BitVec.getLsbD_append]
  simp

theorem status_busy_iff (s : State) : s.status.getLsbD 7 = true ↔ s.phase ≠ .idle := by
  rw [status_getLsbD_seven, State.busy, decide_eq_true_iff]

theorem status_not_busy_iff (s : State) : s.status.getLsbD 7 = false ↔ s.phase = .idle := by
  rw [status_getLsbD_seven, State.busy, decide_eq_false_iff_not, not_not]

/-- A command that does not wait completes or fails at its accept, and leaves `PHASE` as it is. -/
theorem exec_keeps_phase_of_not_waits {i : Instr} (s : State) (hw : waits i = false) :
    ∃ t, exec i s = .next t ∧ t.phase = s.phase := by
  cases i with
  | randbits | new => cases hw
  | clear | rdbytes | getts | getver | getranda | getvar | getrandb | format => exact ⟨_, rfl, rfl⟩
  | insert | extract | frombytes =>
    simp only [exec, execInsert, execExtract, execFrombytes]
    split_ifs <;> exact ⟨_, rfl, rfl⟩
  | parse len =>
    simp only [exec, execParse]
    split <;> exact ⟨_, rfl, rfl⟩

/-- A response that comes with no request outstanding is discarded (R41; 70_reset_and_hazards.md R172). -/
theorem answer_of_idle {s : State} (r : EntropyResponse) (h : s.phase = .idle) : answer r s = s := by
  simp [answer, h]

/-- No outside input takes an idle block out of `IDLE`. -/
theorem takeInput_phase_of_idle {s : State} (i : Input) (h : s.phase = .idle) : (takeInput i s).phase = .idle := by
  cases i with
  | present w => exact h
  | writeDin v => exact h
  | writeInb a b => exact h
  | entropy r => rwa [takeInput, answer_of_idle r h]
  | resetLine asserted =>
    cases asserted with
    | true => rfl
    | false =>
      simp only [takeInput, releaseReset]
      split_ifs
      · rfl
      · exact h

/-- A step in which an idle block accepts nothing leaves it idle. -/
theorem outsideStep_phase_of_idle {s : State} (h : s.phase = .idle) : (outsideStep s).phase = .idle := by
  obtain ⟨i, rest, -, hs⟩ | ⟨-, hs⟩ := outsideStep_cases s
  · rw [hs]
    exact takeInput_phase_of_idle i h
  · rwa [hs, answer_of_idle _ h]

/-- An accept that takes an idle block into a waiting phase is that of a RANDBITS or a NEW. -/
theorem waits_of_accept_leaves_idle {w : CmdWord} {s t : State} (hs : s.phase = .idle) (ha : accept w s = .next t)
    (ht : t.phase ≠ .idle) : ∃ i, decode w = .ok i ∧ waits i = true := by
  obtain ⟨i, hd, he⟩ | ⟨e, -, he⟩ := accept_cases w s
  · refine ⟨i, hd, Bool.of_not_eq_false fun hw => ht ?_⟩
    obtain ⟨t', he', hp⟩ := exec_keeps_phase_of_not_waits s hw
    obtain rfl : t' = t := Host.Outcome.next.inj (he'.symm.trans (he.symm.trans ha))
    rw [hp, hs]
  · obtain rfl : raised .illegalCommand s = t := Host.Outcome.next.inj (he.symm.trans ha)
    exact absurd hs ht

/-- Settles O36: BUSY is read from `PHASE`; commands that do not wait keep `PHASE`, and of the two kinds of step only an
accept can leave `IDLE`. -/
theorem onlyWaitingCommandsSetBusy : Obligations.OnlyWaitingCommandsSetBusy := by
  refine ⟨status_busy_iff, fun s i hr hw => ?_, fun s t hs h ht => ?_⟩
  · obtain ⟨t, he, hp⟩ := exec_keeps_phase_of_not_waits s hw
    have hidle : t.phase = .idle := hp.trans ((ready_iff s).1 hr).1
    exact ⟨t, he, (status_not_busy_iff t).2 hidle⟩
  · rw [status_not_busy_iff] at hs
    rw [status_busy_iff] at ht
    obtain ⟨w, rest, hr, hc, ha⟩ | ⟨-, ho⟩ := step_cases h
    · obtain ⟨i, hd, hw⟩ := waits_of_accept_leaves_idle (s := { s with cmdPort := rest }) hs ha.symm ht
      exact ⟨w, rest, i, hr, hc, hd, hw⟩
    · obtain rfl : t = outsideStep s := Host.Outcome.next.inj ho
      exact absurd (outsideStep_phase_of_idle hs) ht

end Sys2Proof.Machine
end

section
/-! Illegal command words (30_encoding.md R66, R67; 60_exceptions.md R156): what a word that decodes must look like, and that
the accept of any other word only sets ERR to 7. -/

namespace Sys2Proof

theorem noOperands_iff (w : CmdWord) : noOperands w = true ↔ offField w = 0 ∧ widField w = 0 ∧ lenField w = 0 := by
  simp [noOperands, and_assoc]

theorem ifReservedZero_eq_ok_iff {zero : Bool} {i j : Instr} : ifReservedZero zero i = .ok j ↔ zero = true ∧ i = j := by
  cases zero <;> simp [ifReservedZero]

/-- R65, R66: a word that decodes has an opcode of the map, and the fields that opcode's row marks 0 are zero. -/
theorem fields_of_decode_ok {w : CmdWord} {i : Instr} (h : decode w = .ok i) :
    (opcField w ∈ [0x01, 0x04, 0x11, 0x12, 0x13, 0x14, 0x15, 0x16, 0x20] ∧
      offField w = 0 ∧ widField w = 0 ∧ lenField w = 0) ∨
    (opcField w ∈ [0x02, 0x03] ∧ lenField w = 0) ∨
    (opcField w ∈ [0x05, 0x21] ∧ offField w = 0 ∧ widField w = 0) ∨
    (opcField w = 0x10 ∧ offField w = 0 ∧ lenField w = 0) := by
  unfold decode at h
  split at h
  case h_15 => cases h
  all_goals
    rename_i hopc
    obtain ⟨hzero, -⟩ := ifReservedZero_eq_ok_iff.1 h
    simpa [hopc, noOperands_iff] using hzero

end Sys2Proof

namespace Sys2Proof.Machine

/-- A ready block accepts the oldest word on its command port (10_state.md R43). -/
theorem step_of_ready {s : State} {w : CmdWord} {rest : List CmdWord} (hr : s.ready = true) (hc : s.cmdPort = w :: rest) :
    step s = accept w { s with cmdPort := rest } := by
  simp only [step, advance, hr, hc]

/-- Settles O6: an accept runs a command or raises `IllegalCommand`, and a word of the premise decodes to no command, since
its opcode is outside the map or a field its row marks 0 is not zero. -/
theorem illegalWordsOnlyRaiseIllegalCommand : Obligations.IllegalWordsOnlyRaiseIllegalCommand := by
  intro s w rest hr hc hillegal
  rw [step_of_ready hr hc]
  obtain ⟨i, hd, -⟩ | ⟨e, -, ha⟩ := accept_cases w { s with cmdPort := rest }
  · have hlegal := fields_of_decode_ok hd
    rw [opcField_eq, offField_eq, widField_eq, lenField_eq] at hlegal
    simp only [List.mem_cons, List.not_mem_nil, or_false] at hlegal hillegal
    omega
  · exact ha

end Sys2Proof.Machine
end

section
/-! Accepting a word by its opcode (30_encoding.md R66, R68): it runs the row's command when the fields the row marks 0 are
zero, and raises `IllegalCommand` otherwise. -/

namespace Sys2Proof

/-- A word with zero operands is the opcode packed alone. -/
theorem noOperands_iff_eq_packWord (w : CmdWord) : noOperands w = true ↔ w = packWord (opcField w) 0 0 0 := by
  have hopc : opcField w < 256 := by rw [opcField_eq]; omega
  rw [noOperands_iff]
  constructor
  · rintro ⟨hoff, hwid, hlen⟩
    have h := packWord_fields w
    rw [hoff, hwid, hlen] at h
    exact h.symm
  · intro h
    rw [h]
    exact (fields_packWord hopc (by omega) (by omega) (by omega)).2

end Sys2Proof

namespace Sys2Proof.Machine

/-- The accept of a word on whose row the fields marked 0 are zero exactly when `p` holds. -/
theorem accept_eq_ite {w : CmdWord} {zero : Bool} {i : Instr} {p : Prop} [Decidable p]
    (hd : decode w = ifReservedZero zero i) (hp : zero = true ↔ p) (s : State) :
    accept w s = if p then exec i s else .next { s with err := 7 } := by
  rw [accept, hd]
  cases zero with
  | true => rw [if_pos (hp.1 rfl)]; rfl
  | false => rw [if_neg fun h => Bool.false_ne_true (hp.2 h)]; rfl

/-- The accept of a word on a row with no operands (R65): only the opcode packed alone runs the row's command. -/
theorem accept_noOperands_eq_ite {w : CmdWord} {opc : Nat} {i : Instr} (hopc : w.toNat / 2 ^ 24 = opc)
    (hd : decode w = ifReservedZero (noOperands w) i) (s : State) :
    accept w s = if w = packWord opc 0 0 0 then exec i s else .next { s with err := 7 } :=
  accept_eq_ite hd (by rw [noOperands_iff_eq_packWord, opcField_eq, hopc]) s

end Sys2Proof.Machine
end

section
/-! The bit-buffer commands (40_bitbuffer.md R81 to R86): the formulas of R11 and R12 for the model's operations, and what
each command writes. -/

namespace Sys2Proof.Machine

/-! ### The formulas of 00_scope.md -/

/-- `Place` with its mask of `w` ones (R12). -/
theorem placeAt_eq (u : Buf) (off w v : Nat) :
    placeAt u off w v = (u &&& ~~~((((1 : Buf) <<< w) - 1) <<< (128 - off - w))) |||
      (BitVec.ofNat 128 (v % 2 ^ w) <<< (128 - off - w)) := by
  have hmask : BitVec.ofNat 128 (2 ^ w - 1) = ((1 : Buf) <<< w) - 1 := by
    rw [← BitVec.ofNat_sub_ofNat_of_le _ _ (by decide) Nat.one_le_two_pow, BitVec.ofNat_eq_ofNat, ← BitVec.twoPow_eq]
    congr 1
    apply BitVec.eq_of_toNat_eq
    rw [BitVec.toNat_ofNat, BitVec.toNat_twoPow]
  rw [placeAt, hmask]

/-- `Field` as a quotient and a remainder (R12). -/
theorem fieldAt_eq_div_mod (u : Buf) (off w : Nat) : fieldAt u off w = u.toNat / 2 ^ (128 - off - w) % 2 ^ w := by
  rw [fieldAt, Nat.shiftRight_eq_div_pow]

/-- Byte `i` of the buffer as a base-256 digit of `U(BUF)` (R11). -/
theorem bufByte_eq_ofNat (u : Buf) (i : Nat) :
    bufByte u i = BitVec.ofNat 8 (u.toNat / 2 ^ (8 * (15 - i)) % 256) := by
  apply BitVec.eq_of_toNat_eq
  rw [bufByte, BitVec.extractLsb'_toNat, Nat.shiftRight_eq_div_pow, BitVec.toNat_ofNat, Nat.mod_mod]

/-! ### What the commands write -/

/-- R82: the three errors of INSERT in check order, and its effect on a legal run. -/
theorem exec_insert_eq (off wid : Nat) (s : State) :
    exec (.insert off wid) s = .next
      (if wid < 1 ∨ 64 < wid then { s with err := 1 }
       else if 128 < off + wid then { s with err := 2 }
       else if s.strict = true ∧ 2 ^ wid ≤ s.din.toNat then { s with err := 2 }
       else { s with buf := placeAt s.buf off wid s.din.toNat, err := 0 }) := by
  simp only [exec, execInsert, badWidth_iff, runPastEnd_iff, overWide_iff, and_comm (b := s.strict = true)]
  split_ifs <;> rfl

/-- R84: the two errors of EXTRACT in check order, and its effect on a legal run. -/
theorem exec_extract_eq (off wid : Nat) (s : State) :
    exec (.extract off wid) s = .next
      (if wid < 1 ∨ 64 < wid then { s with err := 1 }
       else if 128 < off + wid then { s with err := 2 }
       else { s with dout := BitVec.ofNat 64 (fieldAt s.buf off wid), err := 0 }) := by
  simp only [exec, execExtract, badWidth_iff, runPastEnd_iff]
  split_ifs <;> rfl

/-- R85: `OUTB` after the 16 bytes of a buffer are written to its start. -/
theorem read_writeBytes_bufBytes (m : Memory) (u : Buf) (i : Nat) :
    (m.writeBytes 0 (bufBytes u)).read i = if i < 16 then bufByte u i else m.read i := by
  rw [Memory.read_writeBytes]
  by_cases hi : i < 16
  · rw [dif_pos ⟨Nat.zero_le i, by rwa [bufBytes_length, Nat.zero_add]⟩, if_pos hi, bufBytes_getElem, Nat.sub_zero]
  · rw [dif_neg fun h => hi (by simpa using h.2), if_neg hi]

/-- R86: byte `i` of a buffer loaded from the start of `INB`. -/
theorem bufByte_bufOfBytes_inbOperand (s : State) {i : Nat} (hi : i < 16) :
    bufByte (bufOfBytes (inbOperand s 16)) i = s.inb.read i := by
  rw [inbOperand, bufByte_bufOfBytes (Memory.readBytes_length s.inb 0 16) hi, Memory.readBytes_getElem, Nat.zero_add]

/-! ### The statements -/

/-- Settles O7: opcode 0x01 is a row with no operands, and the meaning of CLEAR is its one write. -/
theorem clearZeroesTheBuffer : Obligations.ClearZeroesTheBuffer := by
  intro s _
  refine ⟨fun w hw => ?_, rfl⟩
  exact accept_noOperands_eq_ite hw (by simp only [decode, opcField_eq, hw]) s

/-- Settles O8: the checks of INSERT in order, and the model's `placeAt` as the formula of R12. -/
theorem insertWritesItsRun : Obligations.InsertWritesItsRun := by
  intro s _
  refine ⟨fun w hw => ?_, fun off wid => ?_⟩
  · rw [← offField_eq, ← widField_eq, ← lenField_eq]
    exact accept_eq_ite (by simp only [decode, opcField_eq, hw]) beq_iff_eq s
  · rw [exec_insert_eq, placeAt_eq]

/-- Settles O12: the checks of EXTRACT in order, and the model's `fieldAt` as the formula of R12. -/
theorem extractReadsItsRun : Obligations.ExtractReadsItsRun := by
  intro s _
  refine ⟨fun w hw => ?_, fun off wid => ?_⟩
  · rw [← offField_eq, ← widField_eq, ← lenField_eq]
    exact accept_eq_ite (by simp only [decode, opcField_eq, hw]) beq_iff_eq s
  · rw [exec_extract_eq, fieldAt_eq_div_mod]

/-- Settles O14: opcode 0x04 is a row with no operands, and the write of the buffer's bytes reaches the first 16 indices. -/
theorem rdbytesCopiesTheBytes : Obligations.RdbytesCopiesTheBytes := by
  intro s _
  refine ⟨fun w hw => ?_, s.outb.writeBytes 0 (bufBytes s.buf), rfl, fun i => ?_⟩
  · exact accept_noOperands_eq_ite hw (by simp only [decode, opcField_eq, hw]) s
  · rw [read_writeBytes_bufBytes, bufByte_eq_ofNat]

/-- Settles O15: a length other than 16 fails the one check of FROMBYTES, and a buffer made of the 16 bytes of `INB` has
those bytes. -/
theorem frombytesLoadsTheBytes : Obligations.FrombytesLoadsTheBytes := by
  intro s _
  refine ⟨fun w hw => ?_, fun len hlen => ?_, bufOfBytes (inbOperand s 16), rfl, fun i hi => ?_⟩
  · have hzero : (offField w == 0 && widField w == 0) = true ↔ w.toNat / 2 ^ 8 % 2 ^ 16 = 0 := by
      rw [Bool.and_eq_true, beq_iff_eq, beq_iff_eq, offField_eq, widField_eq]
      omega
    rw [← lenField_eq]
    exact accept_eq_ite (by simp only [decode, opcField_eq, hw]) hzero s
  · rw [exec, execFrombytes, if_pos hlen]
    rfl
  · exact bufByte_bufOfBytes_inbOperand s hi

end Sys2Proof.Machine
end

section
/-! The LDID packer (41_ldid.md R103 to R119): the responses of the entropy port to RANDBITS and NEW, the integer of a packed
LDID, and the five accessors as EXTRACTs of the fields of R101. -/

namespace Sys2Proof

/-- The three operand fields are zero exactly when the low 24 bits of the word are (R61). -/
theorem noOperands_iff_mod (w : CmdWord) : noOperands w = true ↔ w.toNat % 2 ^ 24 = 0 := by
  rw [noOperands_iff, offField_eq, widField_eq, lenField_eq]
  omega

end Sys2Proof

namespace Sys2Proof.Machine

/-! ### The ports -/

/-- A waiting block is not ready, so its step takes the response that is scheduled next (10_state.md R41). -/
theorem step_of_response {s : State} {r : EntropyResponse} {rest : List Input} (hp : s.phase ≠ .idle)
    (hi : s.inputs = .entropy r :: rest) : step s = .next (answer r { s with inputs := rest }) := by
  have hready : s.ready = false := Bool.eq_false_iff.2 fun h => hp ((ready_iff s).1 h).1
  simp only [step, advance, hready, outsideStep, hi, takeInput]

/-- `Err` ends either waiting command with RandomSourceError and writes nothing else (R106, R110). -/
theorem answer_err {s : State} (hp : s.phase ≠ .idle) : answer .err s = { s with phase := .idle, err := 3 } := by
  unfold answer
  split
  next h => exact absurd h hp
  all_goals rfl

theorem step_of_err {s : State} {rest : List Input} (hp : s.phase ≠ .idle) (hi : s.inputs = .entropy .err :: rest) :
    step s = .next { s with inputs := rest, phase := .idle, err := 3 } := by
  rw [step_of_response hp hi, answer_err (s := { s with inputs := rest }) hp]

theorem answer_of_randWait {s : State} (r : EntropyResponse) (hp : s.phase = .randWait) :
    answer r s = answerRandbits r s := by
  rw [answer, hp]

theorem answer_of_newWaitA {s : State} (r : EntropyResponse) (hp : s.phase = .newWaitA) : answer r s = answerNewA r s := by
  rw [answer, hp]

theorem answer_of_newWaitB {s : State} (r : EntropyResponse) (hp : s.phase = .newWaitB) : answer r s = answerNewB r s := by
  rw [answer, hp]

/-- A time read returns the value the port is already set to (10_state.md R38). -/
theorem timeValue_of_script {s : State} {t : Value} {ts : List Value} (h : s.timeScript = t :: ts) : timeValue s = t := by
  rw [timeValue, h]

/-! ### Truncation and packing -/

/-- The low `n` bits of a value, as the remainder of R104 and R109. -/
theorem setWidth_eq_ofNat_mod (v : Value) (n : Nat) : v.setWidth n = BitVec.ofNat n (v.toNat % 2 ^ n) := by
  apply BitVec.eq_of_toNat_eq
  rw [BitVec.toNat_setWidth, BitVec.toNat_ofNat, Nat.mod_mod]

/-- A field of `n` bits that fits below bit 128 is not cut off when it is moved up by `k`. -/
theorem toNat_setWidth_shiftLeft {n k : Nat} (x : BitVec n) (h : n + k ≤ 128) :
    (x.setWidth 128 <<< k).toNat = x.toNat <<< k := by
  have hx : x.toNat < 2 ^ 128 := x.isLt.trans_le (Nat.pow_le_pow_right (by decide) (by omega))
  have hxk : x.toNat <<< k < 2 ^ 128 := by
    calc x.toNat <<< k = x.toNat * 2 ^ k := Nat.shiftLeft_eq _ _
      _ < 2 ^ n * 2 ^ k := Nat.mul_lt_mul_of_pos_right x.isLt (by positivity)
      _ = 2 ^ (n + k) := (pow_add 2 n k).symm
      _ ≤ 2 ^ 128 := Nat.pow_le_pow_right (by decide) h
  rw [BitVec.toNat_shiftLeft, BitVec.toNat_setWidth, Nat.mod_eq_of_lt hx, Nat.mod_eq_of_lt hxk]

/-- R103: the integer of a packed LDID. -/
theorem pack_toNat (t : BitVec 48) (a : BitVec 12) (b : BitVec 62) :
    (pack t a b).toNat = (t.toNat <<< 80) ||| (7 <<< 76) ||| (a.toNat <<< 64) ||| (2 <<< 62) ||| b.toNat := by
  have hb : (b.setWidth 128).toNat = b.toNat := BitVec.toNat_setWidth_of_le (by decide)
  simp only [pack, BitVec.toNat_or, toNat_setWidth_shiftLeft t (k := 80) (by decide),
    toNat_setWidth_shiftLeft a (k := 64) (by decide), hb]
  rfl

/-- R110: the packed LDID of the two latches and a second draw, by the formula of R103. -/
theorem pack_setWidth_eq (t : BitVec 48) (a : BitVec 12) (v : Value) :
    pack t a (v.setWidth 62) =
      BitVec.ofNat 128 ((t.toNat <<< 80) ||| (7 <<< 76) ||| (a.toNat <<< 64) ||| (2 <<< 62) ||| (v.toNat % 2 ^ 62)) := by
  rw [← BitVec.toNat_setWidth 62 v, ← pack_toNat, BitVec.ofNat_toNat, BitVec.setWidth_eq]

/-! ### What the commands write -/

/-- R106: the width check of RANDBITS, and its request. -/
theorem exec_randbits_eq (wid : Nat) (s : State) :
    exec (.randbits wid) s = .next
      (if wid < 1 ∨ 64 < wid then { s with err := 1 }
       else { s with
          latW := BitVec.ofNat 7 wid
          phase := .randWait
          requests := s.requests ++ [BitVec.ofNat 7 wid] }) := by
  simp only [exec, execRandbits, badWidth_iff]
  split_ifs <;> rfl

/-- R115 to R119: each accessor with its opcode and the offset and width of its run. -/
def accessors : List (Instr × Nat × Nat × Nat) :=
  [(.getts, 0x12, 0, 48), (.getver, 0x13, 48, 4), (.getranda, 0x14, 52, 12), (.getvar, 0x15, 64, 2),
    (.getrandb, 0x16, 66, 62)]

/-- Every accessor is on a row with no operands. -/
theorem accessors_decode : ∀ row ∈ accessors, ∀ w : CmdWord, w.toNat / 2 ^ 24 = row.2.1 →
    decode w = ifReservedZero (noOperands w) row.1 := by
  simp +contextual [accessors, decode, opcField_eq]

/-- Every accessor reads its run into `DOUT` and completes. -/
theorem accessors_exec (s : State) : ∀ row ∈ accessors,
    exec row.1 s = .next { s with dout := BitVec.ofNat 64 (fieldAt s.buf row.2.2.1 row.2.2.2), err := 0 } := by
  simp only [accessors, List.forall_mem_cons, List.not_mem_nil, false_imp_iff, implies_true, and_true]
  exact ⟨rfl, rfl, rfl, rfl, rfl⟩

/-- The run of every accessor passes the checks of EXTRACT. -/
theorem accessors_run_legal : ∀ row ∈ accessors,
    ¬ (row.2.2.2 < 1 ∨ 64 < row.2.2.2) ∧ ¬ 128 < row.2.2.1 + row.2.2.2 := by
  decide

/-! ### The statements -/

/-- Settles O17: the width check of RANDBITS at its accept, and the one response that ends RAND_WAIT. -/
theorem randbitsDrawsItsWidth : Obligations.RandbitsDrawsItsWidth := by
  refine ⟨fun s _ => ⟨fun w hw => ?_, fun wid => exec_randbits_eq wid s⟩, fun s rest hp => ?_⟩
  · have hzero : (offField w == 0 && lenField w == 0) = true ↔ w.toNat / 2 ^ 16 % 256 = 0 ∧ w.toNat % 256 = 0 := by
      rw [Bool.and_eq_true, beq_iff_eq, beq_iff_eq, offField_eq, lenField_eq]
    rw [← widField_eq]
    exact accept_eq_ite (by simp only [decode, opcField_eq, hw]) hzero s
  · have hwait : s.phase ≠ .idle := by simp [hp]
    refine ⟨step_of_err hwait, fun v hi => ?_⟩
    rw [step_of_response hwait hi, answer_of_randWait (s := { s with inputs := rest }) _ hp]
    rfl

/-- Settles O19: the accept of NEW reads the time and sends 12; each response is taken in its own phase, and the last one
writes `BUF` with the formula of R103. -/
theorem newPacksTimeAndDraws : Obligations.NewPacksTimeAndDraws := by
  refine ⟨fun s _ => ⟨fun w hw => ?_, timeValue s, fun t₀ ts h => timeValue_of_script h, ?_⟩, fun s rest hp => ?_,
    fun s rest hp => ?_⟩
  · exact accept_noOperands_eq_ite hw (by simp only [decode, opcField_eq, hw]) s
  · rw [← setWidth_eq_ofNat_mod]
    rfl
  · have hwait : s.phase ≠ .idle := by simp [hp]
    refine ⟨step_of_err hwait, fun v hi => ?_⟩
    rw [step_of_response hwait hi, answer_of_newWaitA (s := { s with inputs := rest }) _ hp, ← setWidth_eq_ofNat_mod]
    rfl
  · have hwait : s.phase ≠ .idle := by simp [hp]
    refine ⟨step_of_err hwait, fun v hi => ?_⟩
    rw [step_of_response hwait hi, answer_of_newWaitB (s := { s with inputs := rest }) _ hp, ← pack_setWidth_eq]
    rfl

/-- Settles O25: an accessor has no operands, reads its field, and EXTRACT of the same run passes its checks and reads the
same. -/
theorem accessorsReadTheirFields : Obligations.AccessorsReadTheirFields := by
  intro s _ row hrow
  have hexec := accessors_exec s row hrow
  obtain ⟨hwid, hrun⟩ := accessors_run_legal row hrow
  refine ⟨fun w hw => ?_, ?_, ?_⟩
  · exact accept_eq_ite (accessors_decode row hrow w hw) (noOperands_iff_mod w) s
  · rw [hexec, fieldAt_eq_div_mod]
  · rw [hexec, exec_extract_eq, if_neg hwid, if_neg hrun]

end Sys2Proof.Machine
end

section
/-! The bit-string codec (42_string_codec.md R137 to R139): what PARSE takes as its digits, when it fails, and the bytes it
makes of 32 hex digits. -/

namespace Sys2Proof

/-- The fields OFF and WID are zero exactly when bits 23 to 8 of the word are (R61). -/
theorem offField_widField_zero_iff (w : CmdWord) :
    (offField w == 0 && widField w == 0) = true ↔ w.toNat / 2 ^ 8 % 2 ^ 16 = 0 := by
  rw [Bool.and_eq_true, beq_iff_eq, beq_iff_eq, offField_eq, widField_eq]
  omega

end Sys2Proof

namespace Sys2Proof.Machine

theorem hexVal_lt_of_isHex {c : Byte} (h : isHex c = true) : hexVal c < 16 := by
  simp only [isHex, Bool.or_eq_true, Bool.and_eq_true, decide_eq_true_eq] at h
  unfold hexVal
  split_ifs <;> omega

theorem inbOperand_eq_map (s : State) (len : Nat) : inbOperand s len = (List.range len).map s.inb.read := by
  simp only [inbOperand, Memory.readBytes, Nat.zero_add]

/-- The decoding of PARSE in terms of the text's bytes other than hyphens. -/
theorem parseText_eq_ite {t d : List Byte} (hd : t.filter (fun c => decide (c ≠ hyphen)) = d) :
    parseText t = if d.length = 32 ∧ ∀ c ∈ d, isHex c = true then some (bufOfBytes (hexBytes d)) else none := by
  rw [parseText, hd]
  by_cases hlen : d.length = 32
  · simp only [hlen, ne_eq, not_true_eq_false, if_false, true_and, List.all_eq_true]
  · simp only [hlen, ne_eq, not_false_eq_true, if_true, false_and, if_false]

/-- R137: PARSE completes with the decoded digits exactly when there are 32 and every one is a hex digit. -/
theorem exec_parse_eq {s : State} {len : Nat} {d : List Byte}
    (hd : ((List.range len).map s.inb.read).filter (fun c => decide (c ≠ hyphen)) = d) :
    exec (.parse len) s = .next
      (if d.length = 32 ∧ ∀ c ∈ d, isHex c = true then { s with buf := bufOfBytes (hexBytes d), err := 0 }
       else { s with err := 4 }) := by
  rw [exec, execParse, inbOperand_eq_map, parseText_eq_ite hd]
  split_ifs <;> rfl

/-- R137: byte `i` of the buffer made of 32 hex digits has digits `2i` and `2i+1`. -/
theorem bufByte_hexBytes_toNat {d : List Byte} (hlen : d.length = 32) (hhex : ∀ c ∈ d, isHex c = true) {i : Nat}
    (hi : i < 16) :
    (bufByte (bufOfBytes (hexBytes d)) i).toNat = hexVal (d.getD (2 * i) 0) * 16 + hexVal (d.getD (2 * i + 1) 0) := by
  have hbytes : (hexBytes d).length = 16 := by rw [hexBytes_length, hlen]
  have hhigh : 2 * i < d.length := by omega
  have hlow : 2 * i + 1 < d.length := by omega
  have := hexVal_lt_of_isHex (hhex _ (List.getElem_mem hhigh))
  have := hexVal_lt_of_isHex (hhex _ (List.getElem_mem hlow))
  rw [bufByte_bufOfBytes hbytes hi, hexBytes_getElem d i hlow, BitVec.toNat_ofNat, List.getD_eq_getElem d 0 hhigh,
    List.getD_eq_getElem d 0 hlow, Nat.mod_eq_of_lt (by omega)]

/-- Settles O30: PARSE branches on whether its digits are 32 hex digits, and each of the 16 bytes then has two of them. -/
theorem parseDecodesTheDigits : Obligations.ParseDecodesTheDigits := by
  intro s _
  refine ⟨fun w hw => ?_, fun len d hd => ⟨fun hbad => ?_, fun hlen hhex => ?_⟩⟩
  · rw [← lenField_eq]
    exact accept_eq_ite (by simp only [decode, opcField_eq, hw]) (offField_widField_zero_iff w) s
  · have hdigits : ¬ (d.length = 32 ∧ ∀ c ∈ d, isHex c = true) := by
      rintro ⟨hlen, hhex⟩
      obtain hne | ⟨c, hc, hno⟩ := hbad
      · exact hne hlen
      · exact Bool.false_ne_true (hno.symm.trans (hhex c hc))
    rw [exec_parse_eq hd.symm, if_neg hdigits]
  · refine ⟨bufOfBytes (hexBytes d), ?_, fun i hi => bufByte_hexBytes_toNat hlen hhex hi⟩
    rw [exec_parse_eq hd.symm, if_pos ⟨hlen, hhex⟩]

end Sys2Proof.Machine
end

section
/-! The reset input (70_reset_and_hazards.md R170, R171): a block that is not about to accept a word takes the next input, an
input leaves the ports' traffic of an idle block as it is, and a release of reset leaves the registers at their reset values. -/

namespace Sys2Proof.Machine

theorem ready_eq_false_iff (s : State) : s.ready = false ↔ s.phase ≠ .idle ∨ s.inReset = true := by
  rw [← Bool.not_eq_true, ready_iff, not_and_or, Bool.not_eq_false]

/-- A block that is not ready, or is presented no word, leaves the step to the outside. -/
theorem step_of_not_accepting {s : State} (h : s.ready = false ∨ s.cmdPort = []) : step s = .next (outsideStep s) := by
  obtain ⟨w, rest, hr, hc, -⟩ | ⟨-, hs⟩ := step_cases (s := s) rfl
  · simp [hr, hc] at h
  · exact hs

/-- A block that accepts nothing takes the oldest scheduled input. -/
theorem step_of_input {s : State} {i : Input} {rest : List Input} (h : s.ready = false ∨ s.cmdPort = [])
    (hi : s.inputs = i :: rest) : step s = .next (takeInput i { s with inputs := rest }) := by
  rw [step_of_not_accepting h, outsideStep, hi]

/-- The release of an asserted reset (R171). -/
theorem takeInput_release {s : State} (h : s.inReset = true) :
    takeInput (.resetLine false) s = { resetRegisters s with inReset := false } := by
  rw [takeInput, releaseReset, if_pos h]

/-- `STATUS` of an idle block with no error shows only STRICT (R29). -/
theorem status_toNat_of_idle_of_err_zero {s : State} (hp : s.phase = .idle) (he : s.err = 0) :
    s.status.toNat = if s.strict then 64 else 0 := by
  have hbusy : s.busy = false := by rw [State.busy, hp]; rfl
  rw [State.status, hbusy, he]
  cases s.strict <;> rfl

/-- Between `s` and `t` the block sent no request, read no time and accepted no word; more words may have been presented. -/
def sameTraffic (s t : State) : Prop :=
  t.requests = s.requests ∧ t.timeReads = s.timeReads ∧ ∃ added, t.cmdPort = s.cmdPort ++ added

theorem sameTraffic_of_eq {s t : State} (hr : t.requests = s.requests) (ht : t.timeReads = s.timeReads)
    (hc : t.cmdPort = s.cmdPort) : sameTraffic s t :=
  ⟨hr, ht, [], by rw [hc, List.append_nil]⟩

/-- No outside input makes an idle block send, read the time or accept. -/
theorem takeInput_sameTraffic_of_idle {s : State} (i : Input) (h : s.phase = .idle) : sameTraffic s (takeInput i s) := by
  cases i with
  | present w => exact ⟨rfl, rfl, [w], rfl⟩
  | writeDin v => exact sameTraffic_of_eq rfl rfl rfl
  | writeInb a b => exact sameTraffic_of_eq rfl rfl rfl
  | entropy r =>
    rw [takeInput, answer_of_idle r h]
    exact sameTraffic_of_eq rfl rfl rfl
  | resetLine asserted =>
    cases asserted with
    | true => exact sameTraffic_of_eq rfl rfl rfl
    | false =>
      simp only [takeInput, releaseReset]
      split_ifs <;> exact sameTraffic_of_eq rfl rfl rfl

/-- A step in which an idle block accepts nothing is one in which it sends nothing and reads no time. -/
theorem outsideStep_sameTraffic_of_idle {s : State} (h : s.phase = .idle) : sameTraffic s (outsideStep s) := by
  obtain ⟨i, rest, -, hs⟩ | ⟨-, hs⟩ := outsideStep_cases s
  · rw [hs]
    exact takeInput_sameTraffic_of_idle (s := { s with inputs := rest }) i h
  · rw [hs, answer_of_idle _ h]
    exact sameTraffic_of_eq rfl rfl rfl

/-- Settles O48: the first step takes the assertion, which holds the block in reset, and so the second takes the release. -/
theorem resetInputRestoresEverything : Obligations.ResetInputRestoresEverything := by
  intro s rest hfree hi
  have hnot : s.ready = false ∨ s.cmdPort = [] := by rwa [ready_eq_false_iff, or_assoc]
  have hassert := step_of_input hnot hi
  have hrelease := step_of_input (s := assertReset { s with inputs := .resetLine false :: rest })
    (.inl ((ready_eq_false_iff _).2 (.inr rfl))) rfl
  rw [takeInput_release (by rfl)] at hrelease
  refine ⟨_, (run_succ hassert).trans ((run_succ hrelease).trans (run_zero _)), ?_⟩
  exact ⟨rfl, rfl, rfl, fun _ => rfl, fun _ => rfl, rfl, rfl, rfl, rfl, rfl, rfl, rfl,
    status_toNat_of_idle_of_err_zero rfl rfl, rfl⟩

/-- Settles O49: a block under reset is not ready, so its step is the outside's, and the step that takes a release resets the
registers. -/
theorem nothingIsAcceptedUnderReset : Obligations.NothingIsAcceptedUnderReset := by
  intro s t hreset hp hstep
  have hnot : s.ready = false ∨ s.cmdPort = [] := .inl ((ready_eq_false_iff s).2 (.inr hreset))
  constructor
  · obtain rfl : outsideStep s = t := Host.Outcome.next.inj ((step_of_not_accepting hnot).symm.trans hstep)
    exact ⟨outsideStep_phase_of_idle hp, outsideStep_sameTraffic_of_idle hp⟩
  · intro rest hi
    have hrelease := step_of_input hnot hi
    rw [takeInput_release (s := { s with inputs := rest }) hreset] at hrelease
    obtain rfl := Host.Outcome.next.inj (hrelease.symm.trans hstep)
    exact ⟨rfl, rfl, rfl, rfl, fun _ => rfl, fun _ => rfl, rfl, rfl, rfl, rfl, rfl, rfl⟩

end Sys2Proof.Machine
end

section
/-! The decoder and the encoder (30_encoding.md R65 to R68): each undoes the other, and the opcode map's masks pick out the
words that decode. -/

namespace Sys2Proof

theorem offField_lt (w : CmdWord) : offField w < 256 := by rw [offField_eq]; omega

theorem widField_lt (w : CmdWord) : widField w < 256 := by rw [widField_eq]; omega

theorem lenField_lt (w : CmdWord) : lenField w < 256 := by rw [lenField_eq]; omega

/-- The decoder reads back the four fields a command's word is packed from. -/
theorem decode_encode {i : Instr} (h : i.wellFormed = true) : decode (encode i) = .ok i := by
  cases i with
  | clear | rdbytes | new | getts | getver | getranda | getvar | getrandb | format => decide
  | insert off wid | extract off wid =>
    simp only [Instr.wellFormed, fitsField, Bool.and_eq_true, decide_eq_true_eq] at h
    simp (disch := omega) [encode, decode, fields_packWord, ifReservedZero]
  | frombytes n | parse n | randbits n =>
    simp only [Instr.wellFormed, fitsField, decide_eq_true_eq] at h
    simp (disch := omega) [encode, decode, fields_packWord, ifReservedZero]

/-- A word that decodes has in its fields the opcode, the operands and the zeros that the command's word is packed from. -/
theorem encode_of_decode_ok {w : CmdWord} {i : Instr} (h : decode w = .ok i) : encode i = w := by
  rw [← packWord_fields w]
  unfold decode at h
  split at h
  case h_15 => cases h
  all_goals
    rename_i hopc
    obtain ⟨hzero, rfl⟩ := ifReservedZero_eq_ok_iff.1 h
    simp only [noOperands_iff, Bool.and_eq_true, beq_iff_eq] at hzero
    simp only [encode, hopc, hzero]

theorem wellFormed_of_decode_ok {w : CmdWord} {i : Instr} (h : decode w = .ok i) : i.wellFormed = true := by
  unfold decode at h
  split at h
  case h_15 => cases h
  all_goals
    obtain ⟨-, rfl⟩ := ifReservedZero_eq_ok_iff.1 h
    simp [Instr.wellFormed, fitsField, offField_lt, widField_lt, lenField_lt]

/-! ### The rows of the opcode map -/

theorem row_mem_opcodeMap (i : Instr) : i.row ∈ opcodeMap := by
  cases i <;> simp [opcodeMap, Instr.row]

theorem exists_row_of_mem_opcodeMap {row : OpcodeRow} (h : row ∈ opcodeMap) : ∃ i : Instr, row = i.row := by
  simp only [opcodeMap, List.mem_cons, List.not_mem_nil, or_false] at h
  rcases h with h | h | h | h | h | h | h | h | h | h | h | h | h | h <;> exact ⟨_, h⟩

/-- The word of a well-formed command is matched by its row, for every command. -/
theorem encode_matches_row {i : Instr} (h : i.wellFormed = true) : encode i &&& i.row.mask = i.row.bits := by
  cases i with
  | clear => exact Laws.TableRow.clear h
  | insert off wid => exact Laws.TableRow.insert off wid h
  | extract off wid => exact Laws.TableRow.extract off wid h
  | rdbytes => exact Laws.TableRow.rdbytes h
  | frombytes len => exact Laws.TableRow.frombytes len h
  | randbits wid => exact Laws.TableRow.randbits wid h
  | new => exact Laws.TableRow.new h
  | getts => exact Laws.TableRow.getts h
  | getver => exact Laws.TableRow.getver h
  | getranda => exact Laws.TableRow.getranda h
  | getvar => exact Laws.TableRow.getvar h
  | getrandb => exact Laws.TableRow.getrandb h
  | format => exact Laws.TableRow.format h
  | parse len => exact Laws.TableRow.parse len h

/-- A field of a word that matches under a mask that keeps that field. -/
theorem field_of_match {w mask bits : CmdWord} (k : Nat) {n : Nat} (h : w &&& mask = bits)
    (hk : mask.extractLsb' k 8 = BitVec.allOnes 8 := by decide) (hn : (bits.extractLsb' k 8).toNat = n := by decide) :
    (w.extractLsb' k 8).toNat = n := by
  rw [← hn, ← h, BitVec.extractLsb'_and, hk, BitVec.and_allOnes]

/-- A word that a row matches decodes, to a command of that row: its opcode is the row's, and the fields the row marks 0 are
zero. -/
theorem decode_of_row_match {w : CmdWord} {i : Instr} (h : w &&& i.row.mask = i.row.bits) :
    ∃ j, decode w = .ok j ∧ j.row = i.row := by
  cases i with
  | clear | rdbytes | new | getts | getver | getranda | getvar | getrandb | format =>
    have hw := (BitVec.and_allOnes (x := w)).symm.trans h
    rw [hw]
    exact ⟨_, rfl, by rfl⟩
  | insert off wid =>
    simp only [Instr.row] at h
    have hopc : opcField w = 0x02 := field_of_match 24 h
    have hlen : lenField w = 0 := field_of_match 0 h
    exact ⟨.insert (offField w) (widField w), by simp only [decode, hopc, hlen]; rfl, rfl⟩
  | extract off wid =>
    simp only [Instr.row] at h
    have hopc : opcField w = 0x03 := field_of_match 24 h
    have hlen : lenField w = 0 := field_of_match 0 h
    exact ⟨.extract (offField w) (widField w), by simp only [decode, hopc, hlen]; rfl, rfl⟩
  | frombytes len =>
    simp only [Instr.row] at h
    have hopc : opcField w = 0x05 := field_of_match 24 h
    have hoff : offField w = 0 := field_of_match 16 h
    have hwid : widField w = 0 := field_of_match 8 h
    exact ⟨.frombytes (lenField w), by simp only [decode, hopc, hoff, hwid]; rfl, rfl⟩
  | randbits wid =>
    simp only [Instr.row] at h
    have hopc : opcField w = 0x10 := field_of_match 24 h
    have hoff : offField w = 0 := field_of_match 16 h
    have hlen : lenField w = 0 := field_of_match 0 h
    exact ⟨.randbits (widField w), by simp only [decode, hopc, hoff, hlen]; rfl, rfl⟩
  | parse len =>
    simp only [Instr.row] at h
    have hopc : opcField w = 0x21 := field_of_match 24 h
    have hoff : offField w = 0 := field_of_match 16 h
    have hwid : widField w = 0 := field_of_match 8 h
    exact ⟨.parse (lenField w), by simp only [decode, hopc, hoff, hwid]; rfl, rfl⟩

/-- The rows of the opcode map are pairwise exclusive: a word decodes to a command of every row that matches it, and decoding
answers one command. -/
theorem row_eq_of_match {w : CmdWord} {i j : Instr} (hi : w &&& i.row.mask = i.row.bits)
    (hj : w &&& j.row.mask = j.row.bits) : i.row = j.row := by
  obtain ⟨i', hi', hrow⟩ := decode_of_row_match hi
  obtain ⟨j', hj', hrow'⟩ := decode_of_row_match hj
  obtain rfl : i' = j' := Except.ok.inj (hi'.symm.trans hj')
  exact hrow.symm.trans hrow'

theorem matches_row_of_decode_ok {w : CmdWord} {i : Instr} (h : decode w = .ok i) : w &&& i.row.mask = i.row.bits := by
  have hm := encode_matches_row (wellFormed_of_decode_ok h)
  rwa [encode_of_decode_ok h] at hm

/-! ### The statements -/

/-- Settles O2, by the fields of the packed word. -/
theorem decodeOfEncode : Obligations.DecodeOfEncode := fun _ h => decode_encode h

/-- Settles O3: every field of an accepted word is the opcode, an operand or a zero of the command. -/
theorem encodeOfDecode : Obligations.EncodeOfDecode := fun _ _ h => ⟨wellFormed_of_decode_ok h, encode_of_decode_ok h⟩

/-- Settles O4: an accepted word is the word of its command, which its row matches, and a word that a row matches decodes to a
command of that row. -/
theorem decodingFollowsTheOpcodeMap : Obligations.DecodingFollowsTheOpcodeMap := by
  refine fun w => ⟨⟨?_, ?_⟩, fun i h => ⟨row_mem_opcodeMap i, matches_row_of_decode_ok h⟩, ?_⟩
  · rintro ⟨i, h⟩
    exact ⟨i.row, row_mem_opcodeMap i, matches_row_of_decode_ok h⟩
  · rintro ⟨row, hrow, h⟩
    obtain ⟨i, rfl⟩ := exists_row_of_mem_opcodeMap hrow
    obtain ⟨j, hj, -⟩ := decode_of_row_match h
    exact ⟨j, hj⟩
  · intro row hrow row' hrow' h h'
    obtain ⟨i, rfl⟩ := exists_row_of_mem_opcodeMap hrow
    obtain ⟨j, rfl⟩ := exists_row_of_mem_opcodeMap hrow'
    exact row_eq_of_match h h'

/-- Settles O1: the decoder evaluated on each word. -/
theorem sampleWordsDecode : Obligations.SampleWordsDecode := by
  unfold Obligations.SampleWordsDecode
  decide

end Sys2Proof

namespace Sys2Proof.Machine

/-- A ready block runs the command that the oldest presented word decodes to (30_encoding.md R68). -/
theorem step_of_decode {s : State} {w : CmdWord} {rest : List CmdWord} {i : Instr} (hr : s.ready = true)
    (hc : s.cmdPort = w :: rest) (hd : decode w = .ok i) : step s = exec i { s with cmdPort := rest } := by
  rw [step_of_ready hr hc, accept, hd]

/-- Settles O5: a ready block accepts the oldest word, and the accept of a word that decodes runs its command. -/
theorem stepRunsTheDecodedCommand : Obligations.StepRunsTheDecodedCommand := fun _ _ _ _ => step_of_decode

end Sys2Proof.Machine
end

section
/-! What an accepted command, an outside input and a step can do, said once: the case splits that the rules about every step
(10_state.md R25 to R43, 60_exceptions.md R150 to R159) are derived from. -/

namespace Sys2Proof.Machine

/-! ### An accepted command -/

/-- The errors each command can raise at its accept (60_exceptions.md R150). -/
def acceptErrors : Instr → List ErrorKind
  | .insert _ _ | .extract _ _ => [.invalidWidth, .rangeError]
  | .randbits _ => [.invalidWidth]
  | .frombytes _ | .parse _ => [.formatError]
  | .clear | .rdbytes | .new | .getts | .getver | .getranda | .getvar | .getrandb | .format => []

/-- What the accept of a command can make of a state: an error, one result, or a wait with one request sent. -/
inductive Accepted (i : Instr) (s : State) : State → Prop
  | failed (e : ErrorKind) (he : e ∈ acceptErrors i) : Accepted i s { s with err := e.code }
  | wroteBuf (u : Buf) (hi : overwritesBuf i = true) : Accepted i s { s with buf := u, err := 0 }
  | wroteDout (v : Value) : Accepted i s { s with dout := v, err := 0 }
  | wroteOutb (bs : List Byte) (n : BitVec 6) (hn : n = 16 ∨ n = 36) (hbs : bs.length = n.toNat) :
      Accepted i s { s with outb := s.outb.writeBytes 0 bs, outlen := n, err := 0 }
  | awaitsDraw (wid : Nat) (hwid : 1 ≤ wid ∧ wid ≤ 64) :
      Accepted i s { s with
        latW := BitVec.ofNat 7 wid, phase := .randWait, requests := s.requests ++ [BitVec.ofNat 7 wid] }
  | awaitsNew (t : BitVec 48) :
      Accepted i s { s with
        timeScript := s.timeScript.tail, timeReads := s.timeReads + 1, latT := t, phase := .newWaitA,
        requests := s.requests ++ [12] }

/-- Every command answers a next state, one of those of `Accepted`. -/
theorem exec_accepted (i : Instr) (s : State) : ∃ t, exec i s = .next t ∧ Accepted i s t := by
  cases i with
  | clear => exact ⟨_, rfl, .wroteBuf 0 rfl⟩
  | insert off wid =>
    refine ⟨_, exec_insert_eq off wid s, ?_⟩
    split_ifs
    · exact .failed .invalidWidth (by simp [acceptErrors])
    · exact .failed .rangeError (by simp [acceptErrors])
    · exact .failed .rangeError (by simp [acceptErrors])
    · exact .wroteBuf _ rfl
  | extract off wid =>
    refine ⟨_, exec_extract_eq off wid s, ?_⟩
    split_ifs
    · exact .failed .invalidWidth (by simp [acceptErrors])
    · exact .failed .rangeError (by simp [acceptErrors])
    · exact .wroteDout _
  | rdbytes => exact ⟨_, rfl, .wroteOutb _ 16 (.inl rfl) (bufBytes_length s.buf)⟩
  | frombytes len =>
    simp only [exec, execFrombytes]
    split_ifs
    · exact ⟨_, rfl, .failed .formatError (by simp [acceptErrors])⟩
    · exact ⟨_, rfl, .wroteBuf _ rfl⟩
  | randbits wid =>
    refine ⟨_, exec_randbits_eq wid s, ?_⟩
    split_ifs with hwid
    · exact .failed .invalidWidth (by simp [acceptErrors])
    · exact .awaitsDraw wid (by omega)
  | new => exact ⟨_, rfl, .awaitsNew _⟩
  | getts | getver | getranda | getvar | getrandb => exact ⟨_, rfl, .wroteDout _⟩
  | format => exact ⟨_, rfl, .wroteOutb _ 36 (.inr rfl) (canon_length s.buf)⟩
  | parse len =>
    refine ⟨_, exec_parse_eq rfl, ?_⟩
    split_ifs
    · exact .wroteBuf _ rfl
    · exact .failed .formatError (by simp [acceptErrors])

theorem accepted_of_exec {i : Instr} {s t : State} (h : exec i s = .next t) : Accepted i s t := by
  obtain ⟨t', he, ha⟩ := exec_accepted i s
  obtain rfl : t' = t := Host.Outcome.next.inj (he.symm.trans h)
  exact ha

/-! ### A response and an input -/

/-- The registers a response can write: those of a completed or failed waiting command, and `LAT_A`. -/
theorem answer_writes (r : EntropyResponse) (s : State) : ∃ p u v e a q,
    answer r s = { s with phase := p, buf := u, dout := v, err := e, latA := a, requests := q } := by
  obtain ⟨-, h⟩ | ⟨-, -, h⟩ | ⟨v, -, -, h⟩ | ⟨v, -, -, h⟩ | ⟨v, -, -, h⟩ := answer_cases r s
  all_goals exact ⟨_, _, _, _, _, _, h⟩

/-- A response ends the waiting command, unless it is the first response of a NEW. -/
theorem answer_phase (r : EntropyResponse) (s : State) :
    (answer r s).phase = .idle ∨ (s.phase = .newWaitA ∧ (answer r s).phase = .newWaitB) := by
  obtain ⟨hp, h⟩ | ⟨-, -, h⟩ | ⟨v, -, -, h⟩ | ⟨v, -, hp, h⟩ | ⟨v, -, -, h⟩ := answer_cases r s
  · exact .inl (by rw [h, hp])
  · exact .inl (by rw [h])
  · exact .inl (by rw [h])
  · exact .inr ⟨hp, by rw [h]⟩
  · exact .inl (by rw [h])

/-- A release resets the registers of a block under reset, and does nothing to another (70_reset_and_hazards.md R171). -/
theorem releaseReset_cases (s : State) :
    (s.inReset = true ∧ releaseReset s = { resetRegisters s with inReset := false }) ∨
      (s.inReset = false ∧ releaseReset s = s) := by
  cases h : s.inReset with
  | true => exact .inl ⟨rfl, by rw [releaseReset, if_pos h]⟩
  | false => exact .inr ⟨rfl, by rw [releaseReset, if_neg (by simp [h])]⟩

/-! ### A step -/

/-- The input a step takes when the block accepts nothing: the oldest scheduled one, or, with none left, a response. The
second list is what stays scheduled. -/
def NextInput (s : State) (i : Input) (rest : List Input) : Prop :=
  s.inputs = i :: rest ∨ (∃ r, i = .entropy r) ∧ s.inputs = [] ∧ rest = []

/-- What a step can do: run the decoded command, refuse an illegal word, or take an input. -/
inductive Stepped (s : State) : State → Prop
  | ran {w : CmdWord} {rest : List CmdWord} {i : Instr} {t : State} (hr : s.ready = true) (hc : s.cmdPort = w :: rest)
      (hd : decode w = .ok i) (ha : Accepted i { s with cmdPort := rest } t) : Stepped s t
  | refused {w : CmdWord} {rest : List CmdWord} (hr : s.ready = true) (hc : s.cmdPort = w :: rest) :
      Stepped s { s with cmdPort := rest, err := 7 }
  | took {i : Input} {rest : List Input} (hfree : s.ready = false ∨ s.cmdPort = []) (hi : NextInput s i rest) :
      Stepped s (takeInput i { s with inputs := rest })

theorem outsideStep_eq_takeInput (s : State) :
    ∃ i rest, NextInput s i rest ∧ outsideStep s = takeInput i { s with inputs := rest } := by
  obtain ⟨i, rest, hi, ho⟩ | ⟨hi, ho⟩ := outsideStep_cases s
  · exact ⟨i, rest, .inl hi, ho⟩
  · refine ⟨.entropy (freeResponse s), [], .inr ⟨⟨_, rfl⟩, hi, rfl⟩, ?_⟩
    rw [ho, takeInput, ← hi]

/-- Every step answers a next state, one of those of `Stepped`. -/
theorem step_stepped (s : State) : ∃ t, step s = .next t ∧ Stepped s t := by
  obtain ⟨w, rest, hr, hc, hs⟩ | ⟨hfree, hs⟩ := step_cases (s := s) rfl
  · obtain ⟨i, hd, ha⟩ | ⟨-, -, ha⟩ := accept_cases w { s with cmdPort := rest }
    · obtain ⟨t, he, hacc⟩ := exec_accepted i { s with cmdPort := rest }
      exact ⟨t, hs.trans (ha.trans he), .ran hr hc hd hacc⟩
    · exact ⟨_, hs.trans ha, .refused hr hc⟩
  · obtain ⟨i, rest, hi, ho⟩ := outsideStep_eq_takeInput s
    exact ⟨_, hs.trans (congrArg _ ho), .took hfree hi⟩

theorem stepped_of_step {s t : State} (h : step s = .next t) : Stepped s t := by
  obtain ⟨t', he, hs⟩ := step_stepped s
  obtain rfl : t' = t := Host.Outcome.next.inj (he.symm.trans h)
  exact hs

end Sys2Proof.Machine
end

section
/-! Runs of the buffer, position by position (20_memory.md R46 to R54): what an insert puts into its run and leaves outside it,
and an LDID as five inserts (41_ldid.md R103). -/

namespace Sys2Proof.Machine

/-! ### Inserting and reading runs -/

/-- R48, R54: an insert puts the value's bits into its run, most significant first, and leaves every other position. -/
theorem bufBit_placeAt (u : Buf) {off w : Nat} (v : Nat) (h : off + w ≤ 128) {p : Nat} (hp : p < 128) :
    bufBit (placeAt u off w v) p = if off ≤ p ∧ p < off + w then v.testBit (off + w - 1 - p) else bufBit u p := by
  rw [bufBit_eq_getLsbD _ hp, bufBit_eq_getLsbD _ hp, placeAt_getLsbD u v h (by omega)]
  by_cases hrun : off ≤ p ∧ p < off + w
  · rw [if_pos hrun, if_pos (by omega)]
    congr 1
    omega
  · rw [if_neg hrun, if_neg (by omega)]

theorem buf_eq_of_bufBit_eq {u v : Buf} (h : ∀ p, p < 128 → bufBit u p = bufBit v p) : u = v := by
  apply BitVec.eq_of_getLsbD_eq
  intro j hj
  have hbit := h (127 - j) (by omega)
  rwa [bufBit_eq_getLsbD u (by omega), bufBit_eq_getLsbD v (by omega), show 127 - (127 - j) = j by omega] at hbit

/-- R54: inserts into disjoint runs commute. -/
theorem placeAt_comm (u : Buf) {off w off' w' : Nat} (v v' : Nat) (h : off + w ≤ 128) (h' : off' + w' ≤ 128)
    (hd : off + w ≤ off' ∨ off' + w' ≤ off) :
    placeAt (placeAt u off w v) off' w' v' = placeAt (placeAt u off' w' v') off w v := by
  apply buf_eq_of_bufBit_eq
  intro p hp
  rw [bufBit_placeAt _ _ h' hp, bufBit_placeAt _ _ h hp, bufBit_placeAt _ _ h hp, bufBit_placeAt _ _ h' hp]
  split_ifs with h1 h2
  · omega
  all_goals rfl

/-- An insert does not change what a run disjoint from its own reads. -/
theorem fieldAt_placeAt_disjoint (u : Buf) {off w off' w' : Nat} (v : Nat) (h : off + w ≤ 128) (h' : off' + w' ≤ 128)
    (hd : off + w ≤ off' ∨ off' + w' ≤ off) : fieldAt (placeAt u off w v) off' w' = fieldAt u off' w' := by
  apply Nat.eq_of_testBit_eq
  intro i
  rw [fieldAt_testBit, fieldAt_testBit]
  by_cases hi : i < w'
  · rw [placeAt_getLsbD u v h (by omega), if_neg (by omega)]
  · simp [hi]

/-! ### A packed LDID -/

/-- R103: packing is inserting the five fields into a zeroed buffer. -/
theorem pack_eq_placeAt (t : BitVec 48) (a : BitVec 12) (b : BitVec 62) :
    pack t a b =
      placeAt (placeAt (placeAt (placeAt (placeAt 0 0 48 t.toNat) 48 4 7) 52 12 a.toNat) 64 2 2) 66 62 b.toNat := by
  apply BitVec.eq_of_getLsbD_eq
  intro j hj
  rw [pack_getLsbD t a b hj]
  split_ifs
  all_goals simp (disch := omega) only [placeAt_getLsbD, if_pos, if_neg, BitVec.testBit_toNat, Nat.reduceSub, Nat.sub_zero]

/-- The five fields of a packed LDID (41_ldid.md R101). -/
theorem fieldAt_pack (t : BitVec 48) (a : BitVec 12) (b : BitVec 62) :
    fieldAt (pack t a b) 0 48 = t.toNat ∧ fieldAt (pack t a b) 48 4 = 7 ∧ fieldAt (pack t a b) 52 12 = a.toNat ∧
      fieldAt (pack t a b) 64 2 = 2 ∧ fieldAt (pack t a b) 66 62 = b.toNat := by
  simp (disch := omega) [pack_eq_placeAt, fieldAt_placeAt_disjoint, fieldAt_placeAt_same,
    Nat.mod_eq_of_lt t.isLt, Nat.mod_eq_of_lt a.isLt, Nat.mod_eq_of_lt b.isLt]

theorem tagged_pack (t : BitVec 48) (a : BitVec 12) (b : BitVec 62) : tagged (pack t a b) := by
  obtain ⟨-, hver, -, hvar, -⟩ := fieldAt_pack t a b
  exact ⟨hver, hvar⟩

/-! ### INSERT and EXTRACT of a legal run -/

/-- R82: an INSERT that completes had a legal run and an accepted value, and wrote its run. -/
theorem exec_insert_of_err_eq_zero {off wid : Nat} {s t : State} (h : exec (.insert off wid) s = .next t)
    (he : t.err = 0) :
    (1 ≤ wid ∧ wid ≤ 64 ∧ off + wid ≤ 128 ∧ (s.strict = true → s.din.toNat < 2 ^ wid)) ∧
      t = { s with buf := placeAt s.buf off wid s.din.toNat, err := 0 } := by
  rw [exec_insert_eq] at h
  obtain rfl := Host.Outcome.next.inj h
  split_ifs at he ⊢ with hwid hrun hstrict
  · exact absurd he (show (1 : BitVec 3) ≠ 0 by decide)
  · exact absurd he (show (2 : BitVec 3) ≠ 0 by decide)
  · exact absurd he (show (2 : BitVec 3) ≠ 0 by decide)
  · exact ⟨⟨by omega, by omega, by omega, fun hs => Nat.lt_of_not_le fun hle => hstrict ⟨hs, hle⟩⟩, rfl⟩

/-- R82: INSERT of a legal run and an accepted value completes. -/
theorem exec_insert_of_legal {off wid : Nat} {s : State} (h1 : 1 ≤ wid) (h64 : wid ≤ 64) (hrun : off + wid ≤ 128)
    (hv : s.strict = true → s.din.toNat < 2 ^ wid) :
    exec (.insert off wid) s = .next { s with buf := placeAt s.buf off wid s.din.toNat, err := 0 } := by
  rw [exec_insert_eq, if_neg (by omega), if_neg (by omega), if_neg fun h => Nat.not_le_of_lt (hv h.1) h.2]

/-- R84: EXTRACT of a legal run completes. -/
theorem exec_extract_of_legal {off wid : Nat} (s : State) (h1 : 1 ≤ wid) (h64 : wid ≤ 64) (hrun : off + wid ≤ 128) :
    exec (.extract off wid) s = .next { s with dout := BitVec.ofNat 64 (fieldAt s.buf off wid), err := 0 } := by
  rw [exec_extract_eq, if_neg (by omega), if_neg (by omega)]

/-- R48 to R50: bit `k` of an extracted field is the buffer's bit `k` places before the run's last. -/
theorem getLsbD_ofNat_fieldAt (u : Buf) {off wid k : Nat} (hrun : off + wid ≤ 128) (hk : k < 64) :
    (BitVec.ofNat 64 (fieldAt u off wid)).getLsbD k = (decide (k < wid) && bufBit u (off + wid - 1 - k)) := by
  rw [BitVec.getLsbD_ofNat, fieldAt_testBit, decide_eq_true hk, Bool.true_and]
  by_cases hw : k < wid
  · rw [bufBit_eq_getLsbD u (by omega), show 127 - (off + wid - 1 - k) = 128 - off - wid + k by omega]
  · simp [hw]

/-! ### The statements -/

/-- Settles O9: the insert of a legal run, bit by bit. -/
theorem insertChangesOnlyItsRun : Obligations.InsertChangesOnlyItsRun := fun _ _ _ _ h1 h64 hrun hv =>
  ⟨_, exec_insert_of_legal h1 h64 hrun hv, fun _ hp => bufBit_placeAt _ _ hrun hp⟩

/-- Settles O10: each of the four INSERTs completed, so each wrote its run, and such writes commute. -/
theorem disjointInsertsCommute : Obligations.DisjointInsertsCommute := by
  intro s a b c d v₁ v₂ off₁ wid₁ off₂ wid₂ _ hdisj ha hae hb hbe hc hce hd hde
  obtain ⟨⟨-, -, hrun₁, -⟩, rfl⟩ := exec_insert_of_err_eq_zero ha hae
  obtain ⟨⟨-, -, hrun₂, -⟩, rfl⟩ := exec_insert_of_err_eq_zero hb hbe
  obtain ⟨-, rfl⟩ := exec_insert_of_err_eq_zero hc hce
  obtain ⟨-, rfl⟩ := exec_insert_of_err_eq_zero hd hde
  exact placeAt_comm s.buf v₁.toNat v₂.toNat hrun₁ hrun₂ hdisj

/-- Settles O11: the run of a completed INSERT is legal, and reading it gives the value's low bits; a strict INSERT completes
only with a value that has no others. -/
theorem extractAfterInsertGivesTheValue : Obligations.ExtractAfterInsertGivesTheValue := by
  intro s t t' off wid _ hi he _ hbuf
  obtain ⟨⟨h1, h64, hrun, hv⟩, rfl⟩ := exec_insert_of_err_eq_zero hi he
  have hread : exec (.extract off wid) t' =
      .next { t' with dout := BitVec.ofNat 64 (s.din.toNat % 2 ^ wid), err := 0 } := by
    rw [exec_extract_of_legal t' h1 h64 hrun, hbuf, fieldAt_placeAt_same s.buf s.din.toNat hrun]
  refine ⟨hread, fun hs => ⟨hv hs, ?_⟩⟩
  rw [hread, Nat.mod_eq_of_lt (hv hs), BitVec.ofNat_toNat, BitVec.setWidth_eq]

/-- Settles O13: the field of a legal run, bit by bit. -/
theorem extractIsBigEndianAtAnyOffset : Obligations.ExtractIsBigEndianAtAnyOffset := fun s _ _ _ h1 h64 hrun =>
  ⟨_, exec_extract_of_legal s h1 h64 hrun, fun _ hk => getLsbD_ofNat_fieldAt s.buf hrun hk⟩

/-- Settles O24: the packed LDID as five inserts, and its integer. -/
theorem packIsFiveInserts : Obligations.PackIsFiveInserts := fun t a b => ⟨(pack_eq_placeAt t a b).symm, pack_toNat t a b⟩

/-- Settles O16: FROMBYTES makes a buffer of the bytes of `INB`, RDBYTES writes a buffer's bytes, and a buffer is determined by
its bytes. -/
theorem bytesRoundTrip : Obligations.BytesRoundTrip := by
  refine ⟨fun s t t' u _ hf _ hbuf hr i hi => ?_, fun s t t' _ hr _ hbuf hin => ?_⟩
  · obtain rfl := Host.Outcome.next.inj hf
    obtain rfl := Host.Outcome.next.inj hr
    calc (t'.outb.writeBytes 0 (bufBytes t'.buf)).read i
      _ = bufByte t'.buf i := by rw [read_writeBytes_bufBytes, if_pos hi]
      _ = bufByte (bufOfBytes (inbOperand s 16)) i := congrArg (bufByte · i) hbuf
      _ = s.inb.read i := bufByte_bufOfBytes_inbOperand s hi
  · obtain rfl := Host.Outcome.next.inj hr
    have hsame : bufOfBytes (inbOperand t' 16) = t'.buf := buf_eq_of_bufByte_eq fun i hi => by
      calc bufByte (bufOfBytes (inbOperand t' 16)) i
        _ = t'.inb.read i := bufByte_bufOfBytes_inbOperand t' hi
        _ = (s.outb.writeBytes 0 (bufBytes s.buf)).read i := hin i hi
        _ = bufByte s.buf i := by rw [read_writeBytes_bufBytes, if_pos hi]
        _ = bufByte t'.buf i := congrArg (bufByte · i) hbuf.symm
    simp only [exec, execFrombytes, ne_eq, not_true_eq_false, if_false, hsame]
    rfl

end Sys2Proof.Machine
end

section
/-! The invariant of the machine (10_state.md R28, R29, R40, R41; 70_reset_and_hazards.md R171), kept by every step. -/

namespace Sys2Proof.Machine

theorem ErrorKind.legalErr_code (e : ErrorKind) : legalErr e.code = true := by cases e <;> rfl

/-- An idle block has no request outstanding, so only its stores and codes are in question. -/
theorem inv_of_idle {s : State} (hinb : s.inb.wf 256 = true) (houtb : s.outb.wf 36 = true)
    (hlen : legalOutlen s.outlen = true) (herr : legalErr s.err = true) (hp : s.phase = .idle) : s.Inv :=
  ⟨hinb, houtb, hlen, herr, by simp [requestConsistent, State.outstanding, hp], fun _ => hp⟩

theorem reset_inv : State.reset.Inv := inv_of_idle rfl rfl rfl rfl rfl

/-- A block that waits for a request just sent, of a width from 1 to 64, meets the clause on requests. -/
theorem requestConsistent_of_sent {s : State} {n : Nat} {sent : List (BitVec 7)} (hn : 1 ≤ n ∧ n ≤ 64)
    (hout : s.outstanding = some n) (hreq : s.requests = sent ++ [BitVec.ofNat 7 n]) : requestConsistent s = true := by
  simp [requestConsistent, hout, hreq, hn]

/-- The accept of a command by a ready block keeps the invariant. -/
theorem Accepted.inv {i : Instr} {s t : State} (ha : Accepted i s t) (hr : s.ready = true) (h : s.Inv) : t.Inv := by
  obtain ⟨hinb, houtb, hlen, herr, -, -⟩ := h
  obtain ⟨hp, hreset⟩ := (ready_iff s).1 hr
  cases ha with
  | failed e he => exact inv_of_idle hinb houtb hlen e.legalErr_code hp
  | wroteBuf u hi => exact inv_of_idle hinb houtb hlen rfl hp
  | wroteDout v => exact inv_of_idle hinb houtb hlen rfl hp
  | wroteOutb bs n hn hbs =>
    refine inv_of_idle hinb (Memory.wf_writeBytes houtb ?_) ?_ rfl hp
    · rcases hn with rfl | rfl <;> simp [hbs]
    · rcases hn with rfl | rfl <;> rfl
  | awaitsDraw wid hwid =>
    refine ⟨hinb, houtb, hlen, herr, requestConsistent_of_sent hwid ?_ rfl, fun h => by simp [hreset] at h⟩
    have hlt : wid < 128 := by omega
    simp [State.outstanding, hlt]
  | awaitsNew t =>
    exact ⟨hinb, houtb, hlen, herr, requestConsistent_of_sent (n := 12) (by decide) rfl rfl,
      fun h => by simp [hreset] at h⟩

/-- A response keeps the invariant: it ends the command, or sends the second request of a NEW. -/
theorem answer_inv {s : State} (r : EntropyResponse) (h : s.Inv) : (answer r s).Inv := by
  obtain ⟨hinb, houtb, hlen, herr, -, hreset⟩ := h
  obtain ⟨hp, ha⟩ | ⟨-, -, ha⟩ | ⟨v, -, -, ha⟩ | ⟨v, -, hp, ha⟩ | ⟨v, -, -, ha⟩ := answer_cases r s
  all_goals rw [ha]
  · exact inv_of_idle hinb houtb hlen herr hp
  · exact inv_of_idle hinb houtb hlen rfl rfl
  · exact inv_of_idle hinb houtb hlen rfl rfl
  · refine ⟨hinb, houtb, hlen, herr, requestConsistent_of_sent (n := 62) (by decide) rfl rfl, fun h => ?_⟩
    exact absurd ((hreset h).symm.trans hp) (by decide)
  · exact inv_of_idle hinb houtb hlen rfl rfl

/-- An input from outside keeps the invariant: a host write names one of the 256 bytes of `INB`, and reset leaves the registers
idle and zero. -/
theorem takeInput_inv {s : State} (i : Input) (h : s.Inv) : (takeInput i s).Inv := by
  obtain ⟨hinb, hrest⟩ := h
  cases i with
  | present w => exact ⟨hinb, hrest⟩
  | writeDin v => exact ⟨hinb, hrest⟩
  | writeInb a b => exact ⟨Memory.wf_write b hinb a.isLt, hrest⟩
  | entropy r => exact answer_inv r ⟨hinb, hrest⟩
  | resetLine asserted =>
    cases asserted with
    | true => exact inv_of_idle rfl rfl rfl rfl rfl
    | false =>
      obtain ⟨-, hrel⟩ | ⟨-, hrel⟩ := releaseReset_cases s
      all_goals rw [takeInput, hrel]
      · exact inv_of_idle rfl rfl rfl rfl rfl
      · exact ⟨hinb, hrest⟩

/-- Settles O51: the reset state is idle, with empty stores and zero codes. -/
theorem resetMeetsTheInvariant : Obligations.ResetMeetsTheInvariant := reset_inv

/-- Settles O52: an accept, a refused word and an input each keep the invariant. -/
theorem everyStepKeepsTheInvariant : Obligations.EveryStepKeepsTheInvariant := by
  intro s t h hs
  cases stepped_of_step hs with
  | ran hr _ _ ha => exact ha.inv hr h
  | refused hr _ =>
    obtain ⟨hinb, houtb, hlen, -, -, -⟩ := h
    exact inv_of_idle hinb houtb hlen rfl ((ready_iff s).1 hr).1
  | took _ _ => exact takeInput_inv _ h

end Sys2Proof.Machine
end

section
/-! Rules about every step and every command, read off what a step can do: the tags of an LDID (41_ldid.md R112), STRICT, DIN
and INB (10_state.md R25, R27, R32), results while a command waits (R52), presented words (R43), and errors (60_exceptions.md
R150 to R159). -/

namespace Sys2Proof.Machine

/-! ### The bits of STATUS -/

/-- Bit 6 of `STATUS` is STRICT (R29). -/
theorem status_getLsbD_six (s : State) : s.status.getLsbD 6 = s.strict := by
  rw [State.status, BitVec.getLsbD_append, BitVec.getLsbD_append, BitVec.getLsbD_append]
  simp

/-- Bits 5 to 3 of `STATUS` are hardwired 0 (R29). -/
theorem status_getLsbD_reserved (s : State) {k : Nat} (h3 : 3 ≤ k) (h5 : k ≤ 5) : s.status.getLsbD k = false := by
  rw [State.status, BitVec.getLsbD_append, if_neg (by omega), BitVec.getLsbD_append, if_pos (by omega),
    BitVec.getLsbD_zero]

/-- Bits 2 to 0 of `STATUS` are ERR (R29). -/
theorem status_toNat_mod_eight (s : State) : s.status.toNat % 8 = s.err.toNat := by
  have herr := s.err.isLt
  rw [State.status, BitVec.toNat_append, ← Nat.shiftLeft_add_eq_or_of_lt herr, Nat.shiftLeft_eq]
  omega

/-! ### What inputs leave unchanged -/

theorem takeInput_strict (i : Input) (s : State) : (takeInput i s).strict = s.strict := by
  cases i with
  | present | writeDin | writeInb => rfl
  | entropy r =>
    obtain ⟨p, u, v, e, a, q, h⟩ := answer_writes r s
    rw [takeInput, h]
  | resetLine asserted =>
    cases asserted with
    | true => rfl
    | false =>
      obtain ⟨-, h⟩ | ⟨-, h⟩ := releaseReset_cases s
      all_goals rw [takeInput, h]
      rfl

/-- Only the host puts words on the command port, after those that stand there; a reset leaves them (log 6). -/
theorem takeInput_cmdPort (i : Input) (s : State) : ∃ added, (takeInput i s).cmdPort = s.cmdPort ++ added := by
  cases i with
  | present w => exact ⟨[w], rfl⟩
  | writeDin | writeInb => exact ⟨[], (List.append_nil _).symm⟩
  | entropy r =>
    obtain ⟨p, u, v, e, a, q, h⟩ := answer_writes r s
    exact ⟨[], by rw [takeInput, h, List.append_nil]⟩
  | resetLine asserted =>
    refine ⟨[], ?_⟩
    rw [List.append_nil]
    cases asserted with
    | true => rfl
    | false =>
      obtain ⟨-, h⟩ | ⟨-, h⟩ := releaseReset_cases s
      all_goals rw [takeInput, h]
      rfl

/-- `t` holds the results of completed commands that `s` holds (R52). -/
def sameResults (s t : State) : Prop :=
  t.buf = s.buf ∧ t.dout = s.dout ∧ t.outb = s.outb ∧ t.outlen = s.outlen ∧ t.err = s.err

/-- An input that leaves a command waiting writes no result: a response that does is the first one to a NEW. -/
theorem takeInput_sameResults {i : Input} {s : State} (h : (takeInput i s).phase ≠ .idle) :
    sameResults s (takeInput i s) := by
  cases i with
  | present | writeDin | writeInb => exact ⟨rfl, rfl, rfl, rfl, rfl⟩
  | entropy r =>
    simp only [takeInput] at h ⊢
    obtain ⟨-, ha⟩ | ⟨-, -, ha⟩ | ⟨v, -, -, ha⟩ | ⟨v, -, -, ha⟩ | ⟨v, -, -, ha⟩ := answer_cases r s
    all_goals rw [ha] at h ⊢
    · exact ⟨rfl, rfl, rfl, rfl, rfl⟩
    · exact absurd rfl h
    · exact absurd rfl h
    · exact ⟨rfl, rfl, rfl, rfl, rfl⟩
    · exact absurd rfl h
  | resetLine asserted =>
    cases asserted with
    | true => exact absurd rfl h
    | false =>
      simp only [takeInput] at h ⊢
      obtain ⟨-, hrel⟩ | ⟨-, hrel⟩ := releaseReset_cases s
      all_goals rw [hrel] at h ⊢
      · exact absurd rfl h
      · exact ⟨rfl, rfl, rfl, rfl, rfl⟩

/-- A response leaves the tags of `BUF`: it leaves `BUF`, or packs a new LDID (R112). -/
theorem tagged_answer (r : EntropyResponse) {s : State} (h : tagged s.buf) : tagged (answer r s).buf := by
  obtain ⟨-, ha⟩ | ⟨-, -, ha⟩ | ⟨v, -, -, ha⟩ | ⟨v, -, -, ha⟩ | ⟨v, -, -, ha⟩ := answer_cases r s
  all_goals rw [ha]
  · exact h
  · exact h
  · exact h
  · exact h
  · exact tagged_pack _ _ _

/-- An input other than a reset leaves the tags of `BUF`. -/
theorem tagged_takeInput {i : Input} {s : State} (h : tagged s.buf)
    (hi : ∀ b, i = .resetLine b → b = false ∧ s.inReset = false) : tagged (takeInput i s).buf := by
  cases i with
  | present | writeDin | writeInb => exact h
  | entropy r => exact tagged_answer r h
  | resetLine asserted =>
    obtain ⟨rfl, hreset⟩ := hi asserted rfl
    rwa [takeInput, releaseReset, hreset]

/-- A command that does not write `BUF` at its accept leaves it. -/
theorem Accepted.buf_eq {i : Instr} {s t : State} (ha : Accepted i s t) (hi : overwritesBuf i = false) : t.buf = s.buf := by
  cases ha with
  | wroteBuf u hw => exact absurd (hw.symm.trans hi) (by decide)
  | failed | wroteDout | wroteOutb | awaitsDraw | awaitsNew => rfl

/-! ### The statements -/

/-- Settles O22: a command that is no other writer of `BUF` leaves it at its accept, and so does every input but a reset, unless
it completes a NEW, which packs the tags. -/
theorem tagsSurviveEveryOtherStep : Obligations.TagsSurviveEveryOtherStep := by
  refine ⟨fun s t htag hs hcmd hreset => ?_, fun s t r rest hp hi hs he hr => ?_⟩
  · cases stepped_of_step hs with
    | ran hr hc hd ha => rwa [ha.buf_eq (hcmd _ _ _ hr hc hd)]
    | refused => exact htag
    | took hfree hnext =>
      refine tagged_takeInput htag fun b hb => ?_
      obtain hin | ⟨⟨r, hr⟩, -, -⟩ := hnext
      · exact hreset hfree b (by rw [hin, hb]; rfl)
      · exact absurd (hb.symm.trans hr) (by simp)
  · have hwait : s.phase ≠ .idle := by simp [hp]
    obtain rfl := Host.Outcome.next.inj ((step_of_response hwait hi).symm.trans hs)
    cases r with
    | err => exact absurd rfl hr
    | ok v =>
      rw [answer_of_newWaitB (s := { s with inputs := rest }) _ hp]
      exact tagged_pack _ _ _

/-- Settles O34: the bits of STATUS, from the top. -/
theorem statusBits : Obligations.StatusBits := fun s =>
  ⟨status_busy_iff s, status_getLsbD_six s, status_getLsbD_reserved s (by decide) (by decide),
    status_getLsbD_reserved s (by decide) (by decide), status_getLsbD_reserved s (by decide) (by decide),
    status_toNat_mod_eight s⟩

/-- Settles O35: no accept and no input writes STRICT. -/
theorem strictNeverChanges : Obligations.StrictNeverChanges := by
  intro s t hs
  have hstrict : t.strict = s.strict := by
    cases stepped_of_step hs with
    | ran _ _ _ ha => cases ha <;> rfl
    | refused => rfl
    | took => exact takeInput_strict _ _
  exact ⟨hstrict, by rw [status_getLsbD_six, status_getLsbD_six, hstrict]⟩

/-- Settles O37: neither DIN nor INB is among the registers an accept or a response writes. -/
theorem commandsLeaveDinAndInb : Obligations.CommandsLeaveDinAndInb := by
  refine ⟨fun s t i _ he => ?_, fun s t r rest hr hi hs => ?_⟩
  · cases accepted_of_exec he <;> exact ⟨rfl, rfl⟩
  · obtain rfl := Host.Outcome.next.inj ((step_of_input (.inl hr) hi).symm.trans hs)
    obtain ⟨p, u, v, e, a, q, h⟩ := answer_writes r { s with inputs := rest }
    rw [takeInput, h]
    exact ⟨rfl, rfl⟩

/-- Settles O38: an accept writes a result only in a state that stays idle. -/
theorem waitingStepsWriteNoResult : Obligations.WaitingStepsWriteNoResult := by
  intro s t hs hp
  cases stepped_of_step hs with
  | ran hr _ _ ha =>
    have hidle : s.phase = .idle := ((ready_iff s).1 hr).1
    cases ha with
    | failed | wroteBuf | wroteDout | wroteOutb => exact absurd hidle hp
    | awaitsDraw | awaitsNew => exact ⟨rfl, rfl, rfl, rfl, rfl⟩
  | refused hr _ => exact absurd ((ready_iff s).1 hr).1 hp
  | took => exact takeInput_sameResults hp

/-- Settles O41: a waiting block takes an input, which only adds words, and a ready one accepts the oldest word. -/
theorem waitingBlockHoldsPresentedWords : Obligations.WaitingBlockHoldsPresentedWords := by
  refine ⟨fun s t hp hs => ?_, fun s w rest hp hi => ?_, fun s w rest => step_of_ready⟩
  · cases stepped_of_step hs with
    | ran hr | refused hr => exact absurd ((ready_iff s).1 hr).1 hp
    | took => exact takeInput_cmdPort _ _
  · exact step_of_input (.inl ((ready_eq_false_iff s).2 (.inl hp))) hi

/-- Settles O32: of what an accept can do only a failure leaves a nonzero ERR in an idle block, and of the responses only
`Err`. -/
theorem errorsWriteOnlyErr : Obligations.ErrorsWriteOnlyErr := by
  refine ⟨fun s t i _ he hp herr => ?_, fun s t r rest hp hi hs hidle herr => ?_⟩
  · cases accepted_of_exec he with
    | failed => rfl
    | wroteBuf | wroteDout | wroteOutb => exact absurd rfl herr
    | awaitsDraw | awaitsNew => cases hp
  · obtain rfl := Host.Outcome.next.inj ((step_of_response hp hi).symm.trans hs)
    obtain ⟨h, -⟩ | ⟨-, -, ha⟩ | ⟨v, -, -, ha⟩ | ⟨v, -, -, ha⟩ | ⟨v, -, -, ha⟩ :=
      answer_cases r { s with inputs := rest }
    · exact absurd h hp
    · exact ha
    · exact absurd (by rw [ha]) herr
    · rw [ha] at hidle
      cases hidle
    · exact absurd (by rw [ha]) herr

/-- Settles O33: an idle block's accept completed with ERR 0, or failed with an error that the command can raise. -/
theorem errorsOfEachCommand : Obligations.ErrorsOfEachCommand := by
  intro s t i _ he hp
  cases accepted_of_exec he with
  | wroteBuf | wroteDout | wroteOutb => exact .inl rfl
  | awaitsDraw | awaitsNew => cases hp
  | failed e h =>
    refine .inr ?_
    cases i with
    | clear | rdbytes | new | getts | getver | getranda | getvar | getrandb | format => simp [acceptErrors] at h
    | insert off wid | extract off wid =>
      simp only [acceptErrors, List.mem_cons, List.not_mem_nil, or_false] at h
      rcases h with rfl | rfl <;> simp [ErrorKind.code]
    | randbits wid | frombytes len | parse len =>
      obtain rfl := List.mem_singleton.1 h
      simp [ErrorKind.code]

/-- Settles O50: what a step can do is always a next state. -/
theorem everyStepAnswers : Obligations.EveryStepAnswers := fun s => (step_stepped s).imp fun _ h => h.1

end Sys2Proof.Machine
end

section
/-! Draws and LDIDs over whole commands (41_ldid.md R102 to R114): the accept and the responses of a RANDBITS or a NEW put
together, and what the accessors read from the packed buffer. -/

namespace Sys2Proof.Machine

/-! ### RANDBITS -/

/-- The word of RANDBITS `n` as a number (30_encoding.md R65). -/
theorem decode_randbits_word {n : Nat} (h : n < 256) : decode (BitVec.ofNat 32 (0x10000000 + n * 2 ^ 8)) = .ok (.randbits n) := by
  have hword : BitVec.ofNat 32 (0x10000000 + n * 2 ^ 8) = encode (.randbits n) := by
    apply BitVec.eq_of_toNat_eq
    rw [encode, packWord_toNat (by decide) (by decide) h (by decide), BitVec.toNat_ofNat]
    omega
  rw [hword]
  exact decode_encode (by simpa [Instr.wellFormed, fitsField] using h)

/-- A draw of up to 64 bits is not cut off by DOUT (R104). -/
theorem reduceDraw_toNat (v : Value) {n : Nat} (h : n ≤ 64) : (reduceDraw v n).toNat = v.toNat % 2 ^ n := by
  have hlt : v.toNat % 2 ^ n < 2 ^ 64 :=
    (Nat.mod_lt _ (by positivity)).trans_le (Nat.pow_le_pow_right (by decide) h)
  rw [reduceDraw, BitVec.toNat_ofNat, Nat.mod_eq_of_lt hlt]

/-- `Ok(V)` completes a RANDBITS with the reduced draw (R106). -/
theorem step_of_randWait_ok {s : State} {v : Value} {rest : List Input} (hp : s.phase = .randWait)
    (hi : s.inputs = .entropy (.ok v) :: rest) :
    step s = .next { s with inputs := rest, phase := .idle, dout := reduceDraw v s.latW.toNat, err := 0 } := by
  rw [step_of_response (by simp [hp]) hi, answer_of_randWait (s := { s with inputs := rest }) _ hp]
  rfl

/-- Settles O18: a legal width is latched in its 7 bits and the response is reduced to it; another width fails at the accept. -/
theorem drawLaw : Obligations.DrawLaw := by
  intro s n v words rest hr hn hc hi
  have haccept := step_of_decode hr hc (decode_randbits_word hn)
  rw [exec_randbits_eq] at haccept
  refine ⟨fun h1 h64 => ?_, fun hbad => ?_⟩
  · rw [if_neg (by omega)] at haccept
    have hlat : (BitVec.ofNat 7 n).toNat = n := by
      rw [BitVec.toNat_ofNat]
      omega
    refine ⟨_, (run_succ haccept).trans (run_succ (step_of_randWait_ok rfl hi)), ?_, rfl, rfl, rfl, fun h => ?_⟩
    · exact (congrArg (fun k => (reduceDraw v k).toNat) hlat).trans (reduceDraw_toNat v h64)
    · apply BitVec.eq_of_toNat_eq
      exact (congrArg (fun k => (reduceDraw v k).toNat) hlat).trans
        ((reduceDraw_toNat v h64).trans (Nat.mod_eq_of_lt (h ▸ v.isLt)))
  · rwa [if_pos (by omega)] at haccept

/-! ### NEW -/

/-- The accept of NEW reads the time and sends the 12-bit request (R110). -/
theorem step_of_new {s : State} {words : List CmdWord} (hr : s.ready = true) (hc : s.cmdPort = 0x11000000 :: words) :
    step s = .next { s with
      cmdPort := words, timeScript := s.timeScript.tail, timeReads := s.timeReads + 1,
      latT := (timeValue s).setWidth 48, phase := .newWaitA, requests := s.requests ++ [12] } := by
  rw [step_of_decode hr hc (i := .new) (by decide)]
  rfl

/-- The first `Ok(V)` of a NEW is latched and the 62-bit request is sent (R110). -/
theorem step_of_newWaitA_ok {s : State} {v : Value} {rest : List Input} (hp : s.phase = .newWaitA)
    (hi : s.inputs = .entropy (.ok v) :: rest) :
    step s = .next { s with
      inputs := rest, latA := v.setWidth 12, phase := .newWaitB, requests := s.requests ++ [62] } := by
  rw [step_of_response (by simp [hp]) hi, answer_of_newWaitA (s := { s with inputs := rest }) _ hp]
  rfl

/-- The second `Ok(V)` of a NEW packs the LDID (R110). -/
theorem step_of_newWaitB_ok {s : State} {v : Value} {rest : List Input} (hp : s.phase = .newWaitB)
    (hi : s.inputs = .entropy (.ok v) :: rest) :
    step s = .next { s with
      inputs := rest, phase := .idle, buf := pack s.latT s.latA (v.setWidth 62), err := 0 } := by
  rw [step_of_response (by simp [hp]) hi, answer_of_newWaitB (s := { s with inputs := rest }) _ hp]
  rfl

/-- Both responses to a NEW, when they are `Ok`. -/
theorem run_two_of_newWaitA {s : State} {va vb : Value} {rest : List Input} (hp : s.phase = .newWaitA)
    (hi : s.inputs = .entropy (.ok va) :: .entropy (.ok vb) :: rest) :
    run 2 s = .next { s with
      inputs := rest, phase := .idle, latA := va.setWidth 12, requests := s.requests ++ [62],
      buf := pack s.latT (va.setWidth 12) (vb.setWidth 62), err := 0 } :=
  (run_succ (step_of_newWaitA_ok hp hi)).trans (run_succ (step_of_newWaitB_ok rfl rfl))

/-- A NEW whose second draw fails (R108). -/
theorem run_two_of_newWaitA_err {s : State} {va : Value} {rest : List Input} (hp : s.phase = .newWaitA)
    (hi : s.inputs = .entropy (.ok va) :: .entropy .err :: rest) :
    run 2 s = .next { s with
      inputs := rest, phase := .idle, latA := va.setWidth 12, requests := s.requests ++ [62], err := 3 } :=
  (run_succ (step_of_newWaitA_ok hp hi)).trans (run_succ (step_of_err (by simp) rfl))

/-- A host register other than STATUS is one of the five below (10_state.md R33). -/
theorem hostRead_eq_of_ne_status {s t : State} (hdin : t.din = s.din) (hinb : t.inb = s.inb) (hdout : t.dout = s.dout)
    (houtb : t.outb = s.outb) (houtlen : t.outlen = s.outlen) {r : HostReg} (hr : r ≠ .status) :
    hostRead r t = hostRead r s := by
  cases r with
  | status => exact absurd rfl hr
  | din => rw [hostRead, hostRead, hdin]
  | inb i => rw [hostRead, hostRead, hinb]
  | dout => rw [hostRead, hostRead, hdout]
  | outb i => rw [hostRead, hostRead, houtb]
  | outlen => rw [hostRead, hostRead, houtlen]

/-- The accessors on a packed buffer give back its fields and the tags (R115 to R119). -/
theorem accessors_of_pack {u : State} {t : BitVec 48} {a : BitVec 12} {b : BitVec 62} (h : u.buf = pack t a b) :
    exec .getts u = .next { u with dout := BitVec.ofNat 64 t.toNat, err := 0 } ∧
    exec .getver u = .next { u with dout := 7, err := 0 } ∧
    exec .getranda u = .next { u with dout := BitVec.ofNat 64 a.toNat, err := 0 } ∧
    exec .getvar u = .next { u with dout := 2, err := 0 } ∧
    exec .getrandb u = .next { u with dout := BitVec.ofNat 64 b.toNat, err := 0 } := by
  have hfields := fieldAt_pack t a b
  rw [← h] at hfields
  have hexec := accessors_exec u
  simp only [accessors, List.forall_mem_cons, hfields] at hexec
  obtain ⟨hts, hver, hra, hvar, hrb, -⟩ := hexec
  exact ⟨hts, hver, hra, hvar, hrb⟩

/-- Settles O20: the three steps of a NEW pack the truncated time and draws, and each accessor reads its field of the packed
buffer. -/
theorem accessorsAfterNew : Obligations.AccessorsAfterNew := by
  intro s t va vb ts words rest hr hc ht hi
  refine ⟨_, (run_succ (step_of_new hr hc)).trans (run_two_of_newWaitA rfl hi), rfl, rfl, fun u' _ hbuf => ?_⟩
  rw [← BitVec.toNat_setWidth 48 t, ← BitVec.toNat_setWidth 12 va, ← BitVec.toNat_setWidth 62 vb,
    ← timeValue_of_script ht]
  exact accessors_of_pack hbuf

/-- Settles O21: an `Err` writes ERR and PHASE, and the steps of a NEW before it write only latches and the ports' record. -/
theorem failedNewLeavesNoTrace : Obligations.FailedNewLeavesNoTrace := by
  intro s words rest hr hc
  have haccept := step_of_new hr hc
  refine ⟨fun hi => ?_, fun va hi => ?_⟩
  · refine ⟨_, (run_succ haccept).trans (run_succ (step_of_err (by simp) hi)), rfl, rfl, rfl, rfl, rfl, fun r hreg => ?_⟩
    refine hostRead_eq_of_ne_status ?_ ?_ ?_ ?_ ?_ hreg <;> rfl
  · refine ⟨_, (run_succ haccept).trans (run_two_of_newWaitA_err rfl hi), rfl, rfl, rfl,
      List.append_assoc s.requests [12] [62], rfl, fun r hreg => ?_⟩
    refine hostRead_eq_of_ne_status ?_ ?_ ?_ ?_ ?_ hreg <;> rfl

/-- Settles O23: the accept of NEW reads neither BUF nor STRICT, and its completion overwrites all of BUF. -/
theorem newIgnoresOldBufferAndStrictness : Obligations.NewIgnoresOldBufferAndStrictness := by
  refine ⟨fun s t u k _ he => ?_, fun s t v va u k rest hp hi hs => ?_⟩
  · obtain rfl := Host.Outcome.next.inj he
    rfl
  · obtain rfl := Host.Outcome.next.inj ((run_two_of_newWaitA hp hi).symm.trans hs)
    exact run_two_of_newWaitA hp hi

end Sys2Proof.Machine
end

section
/-! The ports of the block (10_state.md R33, R42; 70_reset_and_hazards.md R170 to R173): host writes, discarded and free
responses, and an undisturbed block. -/

namespace Sys2Proof.Machine

theorem answer_inputs (r : EntropyResponse) (s : State) : (answer r s).inputs = s.inputs := by
  obtain ⟨p, u, v, e, a, q, h⟩ := answer_writes r s
  rw [h]

/-- With nothing scheduled a waiting block takes the free answer of the entropy port (log 3). -/
theorem step_of_free_response {s : State} (hp : s.phase ≠ .idle) (hi : s.inputs = []) :
    step s = .next (answer (freeResponse s) s) := by
  rw [step_of_not_accepting (.inl ((ready_eq_false_iff s).2 (.inl hp))), outsideStep, hi]

/-! ### The statements -/

/-- Settles O42: a block that accepts nothing takes the host's write, which the byte store reads back at its index. -/
theorem hostWritesOnlyTheirRegister : Obligations.HostWritesOnlyTheirRegister := fun s _ hfree =>
  ⟨fun _ hi => step_of_input hfree hi, fun i b hi =>
    ⟨s.inb.write i.toNat b, step_of_input hfree hi, fun k => Memory.read_write s.inb i.toNat b k⟩⟩

/-- Settles O43: in each phase the response reads and writes neither DIN nor INB. -/
theorem hostWritesDoNotTouchAWaitingCommand : Obligations.HostWritesDoNotTouchAWaitingCommand := by
  intro s r v i b hp
  constructor
  all_goals
    simp only [takeInput, answer]
    split
    next hidle => exact absurd hidle hp
    all_goals cases r <;> rfl

/-- Settles O44: the response is taken, and an idle block discards it. -/
theorem responseWithoutRequestIsDiscarded : Obligations.ResponseWithoutRequestIsDiscarded := by
  intro s r rest hp hfree hi
  rw [step_of_input (hfree.imp_left fun h => (ready_eq_false_iff s).2 (.inr h)) hi]
  exact congrArg _ (answer_of_idle r hp)

/-- Settles O45: a response ends the command, or is the first one of a NEW, whose second one ends it. -/
theorem everyRequestIsAnswered : Obligations.EveryRequestIsAnswered := by
  intro s hp hi
  have hfirst := step_of_free_response hp hi
  obtain hidle | ⟨-, hwait⟩ := answer_phase (freeResponse s) s
  · exact ⟨_, hidle, .inl (run_succ hfirst)⟩
  · have hsecond := step_of_free_response (s := answer (freeResponse s) s) (by simp [hwait])
      (by rw [answer_inputs, hi])
    obtain hidle | ⟨hp', -⟩ := answer_phase (freeResponse (answer (freeResponse s) s)) (answer (freeResponse s) s)
    · exact ⟨_, hidle, .inr ((run_succ hfirst).trans (run_succ hsecond))⟩
    · exact absurd (hwait.symm.trans hp') (by decide)

/-- Settles O46: with no word and no input the step is the free answer, which an idle block discards. -/
theorem nothingHappensWithoutACommand : Obligations.NothingHappensWithoutACommand := by
  intro s hr hc hi
  rw [step_of_not_accepting (.inr hc), outsideStep, hi]
  exact congrArg _ (answer_of_idle _ ((ready_iff s).1 hr).1)

/-- Settles O47: the fields of `State.reset`, one by one. -/
theorem resetState : Obligations.ResetState :=
  ⟨rfl, rfl, rfl, Memory.read_nil, Memory.read_nil, rfl, rfl, rfl, rfl, rfl, rfl, rfl, rfl, rfl⟩

end Sys2Proof.Machine
end

section
/-! The text form (42_string_codec.md R131 to R140): where FORMAT puts each digit and hyphen, what the tags look like there, and
that PARSE undoes FORMAT. -/

namespace Sys2Proof.Machine

/-! ### Characters and their places -/

/-- The two digits of a byte, high nibble first (R132). -/
def byteDigits (b : Byte) : List Byte := [hexLower (b.toNat / 16), hexLower (b.toNat % 16)]

/-- The characters of byte `i` stand at the places of R133. -/
theorem canon_getElem?_charIndex (u : Buf) {i : Nat} (hi : i < 16) :
    (canon u)[charIndex i]? = some (hexLower ((bufByte u i).toNat / 16)) ∧
      (canon u)[charIndex i + 1]? = some (hexLower ((bufByte u i).toNat % 16)) := by
  interval_cases i <;> exact ⟨rfl, rfl⟩

theorem canon_getElem?_hyphen (u : Buf) : ∀ k ∈ [8, 13, 18, 23], (canon u)[k]? = some hyphen := by
  simp only [List.forall_mem_cons, List.not_mem_nil, false_imp_iff, implies_true, and_true]
  exact ⟨rfl, rfl, rfl, rfl⟩

/-- R133: every place of the text form but the four of the hyphens is that of a digit. -/
theorem exists_charIndex : ∀ k < 36, ¬ (k = 8 ∨ k = 13 ∨ k = 18 ∨ k = 23) →
    ∃ i < 16, k = charIndex i ∨ k = charIndex i + 1 := by
  decide

/-- The byte of `OUTB` at a place of the text after the text is written. -/
theorem read_writeBytes_of_getElem? {m : Memory} {bs : List Byte} {k : Nat} {c : Byte} (h : bs[k]? = some c) :
    (m.writeBytes 0 bs).read k = c := by
  obtain ⟨hk, rfl⟩ := List.getElem?_eq_some_iff.1 h
  rw [Memory.read_writeBytes, dif_pos ⟨Nat.zero_le k, by omega⟩]
  rfl

/-- R131: a lowercase digit is a character of `0` to `9` or of `a` to `f`. -/
theorem hexLower_toNat {n : Nat} (h : n < 16) : (0x30 ≤ (hexLower n).toNat ∧ (hexLower n).toNat ≤ 0x39) ∨
    (0x61 ≤ (hexLower n).toNat ∧ (hexLower n).toNat ≤ 0x66) := by
  interval_cases n <;> decide

/-- The high digit of a byte whose top two bits are the variant of an LDID is one of `8`, `9`, `a` and `b` (R120). -/
theorem hexLower_of_variant {n : Nat} (h : 8 ≤ n ∧ n < 12) :
    hexLower n = 0x38 ∨ hexLower n = 0x39 ∨ hexLower n = 0x61 ∨ hexLower n = 0x62 := by
  obtain ⟨hlo, hhi⟩ := h
  interval_cases n <;> decide

/-- The version is the high nibble of byte 6 and the variant the top two bits of byte 8 (41_ldid.md R112). -/
theorem high_nibbles_of_tagged {u : Buf} (h : tagged u) :
    (bufByte u 6).toNat / 16 = 7 ∧ 8 ≤ (bufByte u 8).toNat / 16 ∧ (bufByte u 8).toNat / 16 < 12 := by
  obtain ⟨hver, hvar⟩ := h
  rw [fieldAt_eq_div_mod] at hver hvar
  rw [bufByte_eq_ofNat, bufByte_eq_ofNat, BitVec.toNat_ofNat, BitVec.toNat_ofNat]
  omega

theorem exec_format_eq (s : State) :
    exec .format s = .next { s with outb := s.outb.writeBytes 0 (canon s.buf), outlen := 36, err := 0 } := rfl

/-- R134: the text of a buffer, as FORMAT leaves it in `OUTB`. -/
theorem read_writeBytes_canon (m : Memory) (u : Buf) :
    (∀ i, i < 16 → (m.writeBytes 0 (canon u)).read (charIndex i) = hexLower ((bufByte u i).toNat / 16) ∧
      (m.writeBytes 0 (canon u)).read (charIndex i + 1) = hexLower ((bufByte u i).toNat % 16)) ∧
    (∀ k ∈ [8, 13, 18, 23], (m.writeBytes 0 (canon u)).read k = hyphen) ∧
    (∀ k, 36 ≤ k → (m.writeBytes 0 (canon u)).read k = m.read k) := by
  refine ⟨fun i hi => ?_, fun k hk => ?_, fun k hk => ?_⟩
  · obtain ⟨hhigh, hlow⟩ := canon_getElem?_charIndex u hi
    exact ⟨read_writeBytes_of_getElem? hhigh, read_writeBytes_of_getElem? hlow⟩
  · exact read_writeBytes_of_getElem? (canon_getElem?_hyphen u k hk)
  · rw [Memory.read_writeBytes, dif_neg (by rw [canon_length]; omega)]

/-! ### Digits and bytes -/

/-- The text without its hyphens is the digits of the 16 bytes. -/
theorem canon_filter (u : Buf) :
    (canon u).filter (fun c => decide (c ≠ hyphen)) = (bufBytes u).flatMap byteDigits := by
  rw [canon, bufBytes, List.filter_flatMap, List.flatMap_map]
  simp only [byteText_filter, byteDigits]

/-- A byte is decoded from its own digits. -/
theorem hexBytes_flatMap_byteDigits (bs : List Byte) : hexBytes (bs.flatMap byteDigits) = bs := by
  induction bs with
  | nil => rfl
  | cons b bs ih =>
    obtain ⟨-, hhigh, -⟩ := hexLower_spec (n := b.toNat / 16) (by have := b.isLt; omega)
    obtain ⟨-, hlow, -⟩ := hexLower_spec (n := b.toNat % 16) (by omega)
    rw [List.flatMap_cons, byteDigits, List.cons_append, List.cons_append, List.nil_append, hexBytes, ih, hhigh, hlow,
      Nat.div_add_mod', BitVec.ofNat_toNat, BitVec.setWidth_eq]

theorem isHex_of_mem_flatMap_byteDigits {bs : List Byte} {c : Byte} (h : c ∈ bs.flatMap byteDigits) : isHex c = true := by
  obtain ⟨b, -, hc⟩ := List.mem_flatMap.1 h
  have hb := b.isLt
  simp only [byteDigits, List.mem_cons, List.not_mem_nil, or_false] at hc
  obtain rfl | rfl := hc
  · exact (hexLower_spec (by omega)).1
  · exact (hexLower_spec (by omega)).1

/-- The digits of decoded bytes are the lowercase forms of the digits they were decoded from. -/
theorem flatMap_byteDigits_hexBytes {d : List Byte} (hlen : d.length % 2 = 0) (hhex : ∀ c ∈ d, isHex c = true) :
    (hexBytes d).flatMap byteDigits = d.map (fun c => hexLower (hexVal c)) := by
  induction d using hexBytes.induct with
  | case1 a b rest ih =>
    simp only [List.forall_mem_cons] at hhex
    obtain ⟨ha, hb, hrest⟩ := hhex
    have ha := hexVal_lt_of_isHex ha
    have hb := hexVal_lt_of_isHex hb
    have hbyte : (BitVec.ofNat 8 (hexVal a * 16 + hexVal b)).toNat = hexVal a * 16 + hexVal b :=
      Nat.mod_eq_of_lt (by omega)
    have hhigh : (hexVal a * 16 + hexVal b) / 16 = hexVal a := by omega
    have hlow : (hexVal a * 16 + hexVal b) % 16 = hexVal b := by omega
    rw [hexBytes, List.flatMap_cons, ih (by simp only [List.length_cons] at hlen; omega) hrest, byteDigits, hbyte, hhigh,
      hlow]
    rfl
  | case2 d hd =>
    match d, hd with
    | [], _ => rfl
    | [_], _ => simp at hlen
    | a :: b :: rest, hd => exact absurd rfl (hd a b rest)

/-- The bytes of a buffer built from 16 bytes are those bytes (R11). -/
theorem bufBytes_bufOfBytes {bs : List Byte} (h : bs.length = 16) : bufBytes (bufOfBytes bs) = bs := by
  apply List.ext_getElem
  · rw [bufBytes_length, h]
  · intro i hi hi'
    rw [bufBytes_getElem, bufByte_bufOfBytes h (h ▸ hi')]

/-- The 36 bytes a text leaves at the start of a store are the text. -/
theorem map_read_writeBytes_canon (m : Memory) (u : Buf) :
    (List.range 36).map (m.writeBytes 0 (canon u)).read = canon u := by
  apply List.ext_getElem
  · simp
  · intro i hi hi'
    rw [List.getElem_map, List.getElem_range]
    exact read_writeBytes_of_getElem? (List.getElem?_eq_getElem hi')

/-- R137: a PARSE that completes had 32 hex digits, and made `BUF` of them. -/
theorem exec_parse_of_err_eq_zero {n : Nat} {s t : State} (h : exec (.parse n) s = .next t) (he : t.err = 0) :
    ∃ d, ((List.range n).map s.inb.read).filter (fun c => decide (c ≠ hyphen)) = d ∧ d.length = 32 ∧
      (∀ c ∈ d, isHex c = true) ∧ t = { s with buf := bufOfBytes (hexBytes d), err := 0 } := by
  rw [exec_parse_eq rfl] at h
  obtain rfl := Host.Outcome.next.inj h
  split_ifs at he ⊢ with hd
  · exact ⟨_, rfl, hd.1, hd.2, rfl⟩
  · exact absurd he (show (4 : BitVec 3) ≠ 0 by decide)

/-! ### The statements -/

/-- Settles O26: the table's ranges, character by character where it is finite. -/
theorem hexDigitTable : Obligations.HexDigitTable := by
  refine ⟨fun n hn => ?_, fun n _ hn => ?_, fun c => ?_, fun c => ⟨fun h => ?_, fun h => ?_, fun h => ?_⟩, rfl⟩
  · rw [hexLower, if_pos (by omega)]
  · rw [hexLower, if_neg (by omega)]
  · simp only [isHex, Bool.or_eq_true, Bool.and_eq_true, decide_eq_true_eq, or_assoc]
  · rw [hexVal, if_pos h.2]
  · rw [hexVal, if_neg (by omega), if_neg (by omega)]
  · rw [hexVal, if_neg (by omega), if_pos h.2]

/-- Settles O27: opcode 0x20 is a row with no operands, and FORMAT writes the text at the start of `OUTB`. -/
theorem formatWritesTheCanonicalText : Obligations.FormatWritesTheCanonicalText := fun s _ =>
  ⟨fun _ hw => accept_noOperands_eq_ite hw (by simp only [decode, opcField_eq, hw]) s,
    _, exec_format_eq s, read_writeBytes_canon s.outb s.buf⟩

/-- Settles O28: a place is that of a hyphen or of a lowercase digit. -/
theorem formatMatchesThePattern : Obligations.FormatMatchesThePattern := by
  intro s _
  obtain ⟨hdigit, hhyphen, -⟩ := read_writeBytes_canon s.outb s.buf
  refine ⟨_, exec_format_eq s, rfl, fun k hk => ?_⟩
  split_ifs with hplace
  · exact hhyphen k (by simpa using hplace)
  · obtain ⟨i, hi, hki⟩ := exists_charIndex k hk hplace
    obtain ⟨hhigh, hlow⟩ := hdigit i hi
    have hbyte := (bufByte s.buf i).isLt
    obtain rfl | rfl := hki
    · simpa only [hhigh] using hexLower_toNat (by omega)
    · simpa only [hlow] using hexLower_toNat (by omega)

/-- Settles O29: index 14 is the high digit of byte 6, which is the version, and index 19 that of byte 8, which begins with the
variant. -/
theorem textOfAnLdidShowsItsTags : Obligations.TextOfAnLdidShowsItsTags := by
  intro s _ htag
  obtain ⟨hdigit, -, -⟩ := read_writeBytes_canon s.outb s.buf
  obtain ⟨h6, h8⟩ := high_nibbles_of_tagged htag
  refine ⟨_, exec_format_eq s, ?_, ?_⟩
  · exact (hdigit 6 (by decide)).1.trans (by rw [h6]; rfl)
  · have h19 : (s.outb.writeBytes 0 (canon s.buf)).read 19 = _ := (hdigit 8 (by decide)).1
    simp only [h19]
    exact hexLower_of_variant h8

/-- Settles O31: the text's digits decode to the buffer's bytes, and the digits of decoded bytes are the lowercase forms of the
digits parsed. -/
theorem textRoundTrip : Obligations.TextRoundTrip := by
  refine ⟨fun s t t' _ hf _ hin => ?_, fun s t t' u n _ hparse he _ hbuf hf => ?_⟩
  · obtain rfl := Host.Outcome.next.inj ((exec_format_eq s).symm.trans hf)
    have htext : (List.range 36).map t'.inb.read = canon s.buf := by
      rw [← map_read_writeBytes_canon s.outb s.buf]
      exact List.map_congr_left fun k hk => hin k (List.mem_range.1 hk)
    rw [exec_parse_eq (s := t') (len := 36) (by rw [htext, canon_filter]), if_pos, hexBytes_flatMap_byteDigits,
      bufOfBytes_bufBytes]
    refine ⟨?_, fun c => isHex_of_mem_flatMap_byteDigits⟩
    simp [List.length_flatMap, byteDigits]
  · obtain rfl := Host.Outcome.next.inj ((exec_format_eq t').symm.trans hf)
    obtain ⟨d, hd, hlen, hhex, rfl⟩ := exec_parse_of_err_eq_zero hparse he
    have hbytes : bufBytes t'.buf = hexBytes d := by
      rw [hbuf]
      exact bufBytes_bufOfBytes (by rw [hexBytes_length, hlen])
    calc ((List.range 36).map (t'.outb.writeBytes 0 (canon t'.buf)).read).filter (fun c => decide (c ≠ hyphen))
      _ = (bufBytes t'.buf).flatMap byteDigits := by rw [map_read_writeBytes_canon, canon_filter]
      _ = (hexBytes d).flatMap byteDigits := by rw [hbytes]
      _ = d.map (fun c => hexLower (hexVal c)) := flatMap_byteDigits_hexBytes (by rw [hlen]) hhex
      _ = (((List.range n).map s.inb.read).filter (fun c => decide (c ≠ hyphen))).map (fun c => hexLower (hexVal c)) := by
        rw [hd]

end Sys2Proof.Machine
end

section
/-! Commands that only read (20_memory.md R53) and latches (10_state.md R35): what a reading command answers is a function of
`BUF`, and nothing a command answers depends on a latch that no command in progress has written. -/

namespace Sys2Proof.Machine

/-! ### Reading commands -/

/-- A command that neither writes `BUF` nor waits fails alike in every state, or writes a function of `BUF` to DOUT, or to the
start of OUTB. -/
theorem exec_of_reads {i : Instr} (hbuf : overwritesBuf i = false) (hw : waits i = false) :
    (∃ e : ErrorKind, ∀ s, exec i s = .next { s with err := e.code }) ∨
    (∃ f : Buf → Value, ∀ s, exec i s = .next { s with dout := f s.buf, err := 0 }) ∨
    (∃ (f : Buf → List Byte) (n : BitVec 6), (∀ u, (f u).length = n.toNat) ∧
      ∀ s, exec i s = .next { s with outb := s.outb.writeBytes 0 (f s.buf), outlen := n, err := 0 }) := by
  cases i with
  | clear | insert | frombytes | parse => cases hbuf
  | randbits | new => cases hw
  | extract off wid =>
    by_cases hwid : wid < 1 ∨ 64 < wid
    · exact .inl ⟨.invalidWidth, fun s => by rw [exec_extract_eq, if_pos hwid]; rfl⟩
    · by_cases hrun : 128 < off + wid
      · exact .inl ⟨.rangeError, fun s => by rw [exec_extract_eq, if_neg hwid, if_pos hrun]; rfl⟩
      · exact .inr (.inl ⟨fun u => BitVec.ofNat 64 (fieldAt u off wid), fun s => by
          rw [exec_extract_eq, if_neg hwid, if_neg hrun]⟩)
  | getts => exact .inr (.inl ⟨fun u => BitVec.ofNat 64 (fieldAt u 0 48), fun _ => rfl⟩)
  | getver => exact .inr (.inl ⟨fun u => BitVec.ofNat 64 (fieldAt u 48 4), fun _ => rfl⟩)
  | getranda => exact .inr (.inl ⟨fun u => BitVec.ofNat 64 (fieldAt u 52 12), fun _ => rfl⟩)
  | getvar => exact .inr (.inl ⟨fun u => BitVec.ofNat 64 (fieldAt u 64 2), fun _ => rfl⟩)
  | getrandb => exact .inr (.inl ⟨fun u => BitVec.ofNat 64 (fieldAt u 66 62), fun _ => rfl⟩)
  | rdbytes => exact .inr (.inr ⟨bufBytes, 16, bufBytes_length, fun _ => rfl⟩)
  | format => exact .inr (.inr ⟨canon, 36, canon_length, fun _ => rfl⟩)

/-- Bytes written to the start of two stores read alike there. -/
theorem read_writeBytes_eq {bs : List Byte} {k : Nat} (h : k < bs.length) (m m' : Memory) :
    (m'.writeBytes 0 bs).read k = (m.writeBytes 0 bs).read k := by
  have hk := List.getElem?_eq_getElem h
  rw [read_writeBytes_of_getElem? hk, read_writeBytes_of_getElem? hk]

/-- Settles O39: each of the three ways a reading command can go is the same in two states with the same `BUF`. -/
theorem readsHaveNoSideEffect : Obligations.ReadsHaveNoSideEffect := by
  intro s t s' t' i _ _ hbuf hw he hsame he'
  obtain ⟨e, h⟩ | ⟨f, h⟩ | ⟨f, n, hlen, h⟩ := exec_of_reads hbuf hw
  all_goals
    obtain rfl := Host.Outcome.next.inj ((h s).symm.trans he)
    obtain rfl := Host.Outcome.next.inj ((h s').symm.trans he')
  · exact ⟨rfl, rfl, .inl ⟨rfl, rfl⟩, .inl ⟨rfl, rfl, rfl, rfl⟩⟩
  · exact ⟨rfl, rfl, .inr (congrArg f hsame), .inl ⟨rfl, rfl, rfl, rfl⟩⟩
  · refine ⟨rfl, rfl, .inl ⟨rfl, rfl⟩, .inr ⟨rfl, fun k hk => ?_⟩⟩
    simp only [hsame]
    exact read_writeBytes_eq (by rwa [hlen]) s.outb s'.outb

/-! ### Latches -/

/-- A state with other latches. -/
def State.withLatches (s : State) (w : BitVec 7) (t : BitVec 48) (a : BitVec 12) : State :=
  { s with latW := w, latT := t, latA := a }

theorem sameButLatches_iff {s s' : State} : sameButLatches s s' ↔ ∃ w t a, s' = s.withLatches w t a := by
  constructor
  · intro h
    exact ⟨_, _, _, h⟩
  · rintro ⟨w, t, a, rfl⟩
    rfl

theorem overWide_withLatches (s : State) (w : BitVec 7) (l : BitVec 48) (a : BitVec 12) (wid : Nat) :
    overWide (s.withLatches w l a) wid = overWide s wid := rfl

theorem inbOperand_withLatches (s : State) (w : BitVec 7) (l : BitVec 48) (a : BitVec 12) (len : Nat) :
    inbOperand (s.withLatches w l a) len = inbOperand s len := rfl

/-- What a command answers does not depend on the latches: a command reads none, and a waiting one writes those it will read. -/
theorem exec_sameWork (i : Instr) {s s' : State} (hp : s.phase = .idle) (h : sameButLatches s s') :
    ∃ t t', exec i s = .next t ∧ exec i s' = .next t' ∧ sameWork t t' := by
  obtain ⟨w, l, a, rfl⟩ := sameButLatches_iff.1 h
  cases i with
  | clear | rdbytes | getts | getver | getranda | getvar | getrandb | format =>
    exact ⟨_, _, rfl, rfl, sameWork_of_idle hp rfl⟩
  | insert off wid =>
    simp only [exec, execInsert]
    rw [overWide_withLatches]
    split_ifs <;> exact ⟨_, _, rfl, rfl, sameWork_of_idle hp rfl⟩
  | extract off wid | frombytes len =>
    simp only [exec, execExtract, execFrombytes]
    split_ifs <;> exact ⟨_, _, rfl, rfl, sameWork_of_idle hp rfl⟩
  | parse len =>
    simp only [exec, execParse, inbOperand_withLatches]
    split <;> exact ⟨_, _, rfl, rfl, sameWork_of_idle hp rfl⟩
  | randbits wid =>
    simp only [exec, execRandbits]
    split_ifs
    · exact ⟨_, _, rfl, rfl, sameWork_of_idle hp rfl⟩
    · exact ⟨_, _, rfl, rfl, rfl, rfl⟩
  | new => exact ⟨_, _, rfl, rfl, rfl, rfl⟩

theorem accept_sameWork (w : CmdWord) {s s' : State} (hp : s.phase = .idle) (h : sameButLatches s s') :
    ∃ t t', accept w s = .next t ∧ accept w s' = .next t' ∧ sameWork t t' := by
  unfold accept
  cases decode w with
  | ok i => exact exec_sameWork i hp h
  | error e =>
    obtain ⟨w, l, a, rfl⟩ := sameButLatches_iff.1 h
    exact ⟨_, _, rfl, rfl, sameWork_of_idle hp rfl⟩

/-- `Err` ends a waiting command alike, whatever any latch holds. -/
theorem answer_err_sameWork {s s' : State} (hp : s.phase ≠ .idle) (h : sameButLatches s s') :
    (answer .err s).phase = .idle ∧ sameWork (answer .err s) (answer .err s') := by
  obtain ⟨w, l, a, rfl⟩ := sameButLatches_iff.1 h
  rw [answer_err hp, answer_err (s := s.withLatches w l a) hp]
  exact ⟨rfl, sameWork_of_idle rfl rfl⟩

/-- An idle block discards a response, whatever any latch holds. -/
theorem answer_sameWork_of_idle (r : EntropyResponse) {s s' : State} (hp : s.phase = .idle) (h : sameButLatches s s') :
    sameWork (answer r s) (answer r s') := by
  obtain ⟨w, l, a, rfl⟩ := sameButLatches_iff.1 h
  rw [answer_of_idle r hp, answer_of_idle (s := s.withLatches w l a) r hp]
  exact sameWork_of_idle hp h

/-- A response reads only latches that the command in progress has written. -/
theorem answer_sameWork (r : EntropyResponse) {s s' : State} (h : sameWork s s') : sameWork (answer r s) (answer r s') := by
  obtain ⟨hbut, hlive⟩ := h
  by_cases hidle : s.phase = .idle
  · exact answer_sameWork_of_idle r hidle hbut
  · cases r with
    | err => exact (answer_err_sameWork hidle hbut).2
    | ok v =>
      obtain ⟨w, l, a, rfl⟩ := sameButLatches_iff.1 hbut
      unfold sameLiveLatches at hlive
      split at hlive
      next hp => exact absurd hp hidle
      next hp =>
        obtain rfl : w = s.latW := hlive
        rw [answer_of_randWait _ hp, answer_of_randWait (s := s.withLatches _ l a) _ hp]
        exact sameWork_of_idle rfl rfl
      next hp =>
        obtain rfl : l = s.latT := hlive
        rw [answer_of_newWaitA _ hp, answer_of_newWaitA (s := s.withLatches w _ a) _ hp]
        exact ⟨rfl, rfl, rfl⟩
      next hp =>
        obtain ⟨rfl, rfl⟩ : l = s.latT ∧ a = s.latA := hlive
        rw [answer_of_newWaitB _ hp, answer_of_newWaitB (s := s.withLatches w _ _) _ hp]
        exact sameWork_of_idle rfl rfl

theorem takeInput_sameWork (i : Input) {s s' : State} (h : sameWork s s') : sameWork (takeInput i s) (takeInput i s') := by
  cases i with
  | entropy r => exact answer_sameWork r h
  | present | writeDin | writeInb =>
    obtain ⟨hbut, hlive⟩ := h
    obtain ⟨w, l, a, rfl⟩ := sameButLatches_iff.1 hbut
    exact ⟨rfl, hlive⟩
  | resetLine asserted =>
    obtain ⟨w, l, a, rfl⟩ := sameButLatches_iff.1 h.1
    cases asserted with
    | true => exact sameWork_of_idle rfl rfl
    | false =>
      obtain ⟨hreset, hrel⟩ | ⟨hreset, hrel⟩ := releaseReset_cases s
      · rw [takeInput, takeInput, hrel, releaseReset, if_pos (show (s.withLatches w l a).inReset = true from hreset)]
        exact sameWork_of_idle rfl rfl
      · rw [takeInput, takeInput, hrel, releaseReset,
          if_neg (show ¬ (s.withLatches w l a).inReset = true by simp [State.withLatches, hreset])]
        exact h

theorem outsideStep_of_input {s : State} {i : Input} {rest : List Input} (hi : s.inputs = i :: rest) :
    outsideStep s = takeInput i { s with inputs := rest } := by
  rw [outsideStep, hi]

theorem outsideStep_of_no_input {s : State} (hi : s.inputs = []) : outsideStep s = answer (freeResponse s) s := by
  rw [outsideStep, hi]

/-- The outside moves alike: the inputs and the free response are the same. -/
theorem outsideStep_sameWork {s s' : State} (h : sameWork s s') : sameWork (outsideStep s) (outsideStep s') := by
  obtain ⟨hbut, hlive⟩ := h
  obtain ⟨w, l, a, rfl⟩ := sameButLatches_iff.1 hbut
  cases hi : s.inputs with
  | nil =>
    rw [outsideStep_of_no_input hi, outsideStep_of_no_input (s := s.withLatches w l a) hi]
    exact answer_sameWork (freeResponse s) ⟨hbut, hlive⟩
  | cons i rest =>
    rw [outsideStep_of_input hi, outsideStep_of_input (s := s.withLatches w l a) hi]
    exact takeInput_sameWork i ⟨rfl, hlive⟩

/-- A step of two states that differ only in latches that no command in progress has written. -/
theorem step_sameWork {s s' : State} (h : sameWork s s') :
    ∃ t t', step s = .next t ∧ step s' = .next t' ∧ sameWork t t' := by
  obtain ⟨w, l, a, rfl⟩ := sameButLatches_iff.1 h.1
  obtain ⟨word, rest, hr, hc, hs⟩ | ⟨hfree, hs⟩ := step_cases (s := s) rfl
  · rw [hs, step_of_ready (s := s.withLatches w l a) hr hc]
    exact accept_sameWork (s := { s with cmdPort := rest }) word ((ready_iff s).1 hr).1 rfl
  · rw [hs, step_of_not_accepting (s := s.withLatches w l a) hfree]
    exact ⟨_, _, rfl, rfl, outsideStep_sameWork h⟩

theorem run_sameWork (k : Nat) {s s' : State} (h : sameWork s s') :
    ∃ t t', run k s = .next t ∧ run k s' = .next t' ∧ sameWork t t' := by
  induction k generalizing s s' with
  | zero => exact ⟨s, s', rfl, rfl, h⟩
  | succ k ih =>
    obtain ⟨t, t', hs, hs', hstep⟩ := step_sameWork h
    rw [run_succ hs, run_succ hs']
    exact ih hstep

/-- Settles O40: every step keeps the agreement, so every run does, and what the host sees holds no latch; an `Err` and a reset
end the command whose latches differed. -/
theorem latchesNeverShow : Obligations.LatchesNeverShow := by
  refine ⟨fun k s s' h => ?_, fun s s' i rest hp h hi hend => ?_⟩
  · obtain ⟨t, t', hs, hs', hrun⟩ := run_sameWork k h
    exact ⟨t, t', hs, hs', hrun, sameButLatches_shows hrun.1⟩
  · have hwait : s.ready = false := (ready_eq_false_iff s).2 (.inl hp)
    obtain ⟨w, l, a, rfl⟩ := sameButLatches_iff.1 h
    refine ⟨_, _, step_of_input (.inl hwait) hi, step_of_input (s := s.withLatches w l a) (.inl hwait) hi, ?_⟩
    obtain rfl | rfl := hend
    · exact answer_err_sameWork (s := { s with inputs := rest }) hp rfl
    · exact ⟨rfl, sameWork_of_idle rfl rfl⟩

end Sys2Proof.Machine
end
